-- ==== Sys2Proof/Word.lean ====
section
/-! DEFINITION. The widths of the block's values (spec/00_scope.md R7, R9; spec/10_state.md R13, R22, R23):
bytes, 16-bit parameters, 32-bit registers, 4-byte sequences, the accumulator selector, frames. -/

namespace Sys2Proof

/-- A byte (R9). -/
abbrev Byte := BitVec 8

/-- `param1`: a 16-bit unsigned value (R23, R45). -/
abbrev Half := BitVec 16

/-- The width of every accumulator, `CRC_WIDTH = 32` (R7, R13). -/
abbrev Word := BitVec 32

/-- A byte sequence of exactly 4 bytes, `b0` first (R9): a CRC word, a `param2` in logical order, a digest. -/
structure Bytes4 where
  b0 : Byte
  b1 : Byte
  b2 : Byte
  b3 : Byte
  deriving DecidableEq, Repr, Inhabited

/-- The accumulator selector `k` (R13, R14, R51: 1 bit; 0 is the page CRC, 1 the image CRC). -/
inductive Acc where
  | page
  | image
  deriving DecidableEq, Repr, Inhabited

/-- A frame (R22): bus identifier and payload. `len` is the length of the payload, since R22 says that
`data` has exactly `len` bytes; it is stored once, as the payload. -/
structure Frame where
  id : Nat
  data : List Byte
  deriving DecidableEq, Repr, Inhabited

/-- `Frame.len` of R22. -/
abbrev Frame.len (f : Frame) : Nat := f.data.length

end Sys2Proof
end

