-- ==== Sys2Proof/Config.lean ====
section
/-! DEFINITION. The configuration record (spec/00_scope.md R7, R8; spec/10_state.md R18): one field per row of
R7's table, the default being the value shown there; the four OPEN rows have no value in the spec and are
uninterpreted constants of the deployment. -/

namespace Sys2Proof

/-- The parameters of R7, one field per row. They are static (R18): no operation writes one. -/
structure Config where
  /-- `CRC_WIDTH`. The model's accumulators are 32 bits by type; R8's condition on `POLY_FULL` reads this field. -/
  crcWidth : Nat := 32
  /-- `POLY`, the generator without its x^32 term. -/
  poly : Word := 0x04C11DB7#32
  /-- `POLY_FULL`, the generator with its x^32 term. -/
  polyFull : BitVec 33 := 0x104C11DB7#33
  /-- `INIT`, what an accumulator holds when initialised. -/
  init : Word := 0xFFFFFFFF#32
  /-- `REFIN`: false, input bytes are consumed most significant bit first. -/
  refin : Bool := false
  /-- `REFOUT`: false, the digest is the register, not bit-reversed. -/
  refout : Bool := false
  /-- `XOROUT`, XORed into the register to form the digest. -/
  xorout : Word := 0x00000000#32
  /-- `WORD_BYTES`, bytes consumed by one update. -/
  wordBytes : Nat := 4
  /-- `NACC`, the number of accumulators; the model's selector `k` is 1 bit by type. -/
  nacc : Nat := 2
  /-- `FRAME_BYTES`, the payload length of every command frame. -/
  frameBytes : Nat := 8
  /-- `RESP_MIN_BYTES`, the least payload length of a response that can match. -/
  respMinBytes : Nat := 3
  /-- `RX_MAX_BYTES`, the greatest payload length of a received frame. -/
  rxMaxBytes : Nat := 8
  /-- `PAGE_BYTES` (environment). -/
  pageBytes : Nat := 1024
  /-- `WORDS_PER_PAGE` (environment). -/
  wordsPerPage : Nat := 256
  /-- `CODE_WRITEBUFFER`. -/
  codeWriteBuffer : Byte := 1#8
  /-- `CODE_WRITEPAGE`. -/
  codeWritePage : Byte := 2#8
  /-- `CODE_WRITECRC`. -/
  codeWriteCrc : Byte := 3#8
  /-- `CODE_PING`. -/
  codePing : Byte := 4#8
  /-- `CODE_SETID`. -/
  codeSetId : Byte := 5#8
  /-- `STATUS_OK`, the status byte of a successful response. -/
  statusOk : Byte := 0#8
  /-- `ADDR_BROADCAST`, the broadcast and discovery address. -/
  addrBroadcast : Byte := 0#8
  /-- `ADDR_MAX`, the greatest assignable board address. -/
  addrMax : Byte := 254#8
  /-- `ADDR_NEVER`, never a valid assignable address. -/
  addrNever : Byte := 255#8
  /-- `CMD_ID`, the bus identifier of command frames: OPEN. -/
  cmdId : Nat
  /-- `RESP_ID_BASE`, the first recognised response identifier: OPEN. -/
  respIdBase : Nat
  /-- `RESP_ID_COUNT`, the number of recognised response identifiers: OPEN, at least 1. -/
  respIdCount : Nat
  /-- `ID_WIDTH`, the width of a bus identifier: OPEN. -/
  idWidth : Nat
  deriving DecidableEq, Repr

namespace Config

/-- Uninterpreted: the deployment's `RESP_ID_BASE` (R7: OPEN). DESIGN CHOICE, log 4; safe. -/
opaque openRespIdBase : Nat

/-- Uninterpreted: how many recognised response identifiers there are beyond the first (R7: OPEN, at least 1).
DESIGN CHOICE, log 4; safe. -/
opaque openRespIdExtra : Nat

/-- Uninterpreted: numbers the identifiers that are not recognised response identifiers, in rising order;
`openCmdId` is the one it numbers. DESIGN CHOICE, log 4; safe. -/
opaque openCmdIdIndex : Nat

/-- Uninterpreted: bits of `ID_WIDTH` beyond those the identifiers need. DESIGN CHOICE, log 4; safe. -/
opaque openIdWidthExtra : Nat

/-- The deployment's `RESP_ID_COUNT`, at least 1 (R8). -/
def openRespIdCount : Nat := openRespIdExtra + 1

/-- The deployment's `CMD_ID`: any identifier that is not a recognised response identifier (R8). -/
def openCmdId : Nat :=
  if openCmdIdIndex < openRespIdBase then openCmdIdIndex else openCmdIdIndex + openRespIdCount

/-- The greatest recognised response identifier of the deployment (R41). -/
def openRespIdLast : Nat := openRespIdBase + openRespIdExtra

/-- The deployment's `ID_WIDTH`: any width that holds `CMD_ID` and the greatest response identifier, so a range that ends at
`2 ^ ID_WIDTH - 1` is among them. The spec leaves the width open (R7, R22); that identifiers fit it is read from R7's width
column. DESIGN CHOICE, log 4. -/
def openIdWidth : Nat := Nat.log2 (max openCmdId openRespIdLast) + 1 + openIdWidthExtra

/-- The configuration of the deployed block: R7's values, the OPEN rows uninterpreted. -/
def deployment : Config where
  cmdId := openCmdId
  respIdBase := openRespIdBase
  respIdCount := openRespIdCount
  idWidth := openIdWidth

/-- The five command codes (R44), in the order of their numbers. -/
def commandCodes (c : Config) : List Byte :=
  [c.codeWriteBuffer, c.codeWritePage, c.codeWriteCrc, c.codePing, c.codeSetId]

/-- R8: the consistency conditions a configuration record must meet. The last two say that identifiers fit
`ID_WIDTH` bits, which R7's width column says of `CMD_ID` and `RESP_ID_BASE`. -/
structure Consistent (c : Config) : Prop where
  pageIsWholeWords : c.wordsPerPage * c.wordBytes = c.pageBytes
  polyFullHasTopBit : c.polyFull.toNat = 2 ^ c.crcWidth + c.poly.toNat
  codesDistinct : c.commandCodes.Nodup
  responseFits : c.respMinBytes ≤ c.rxMaxBytes
  commandFits : c.frameBytes ≤ c.rxMaxBytes
  respIdsNonempty : 1 ≤ c.respIdCount
  cmdIdNotRecognised : ¬ (c.respIdBase ≤ c.cmdId ∧ c.cmdId < c.respIdBase + c.respIdCount)
  cmdIdFits : c.cmdId < 2 ^ c.idWidth
  respIdsFit : c.respIdBase + c.respIdCount ≤ 2 ^ c.idWidth

/-- Every row of R7 that has a value in the spec has that value; the OPEN rows are anything. -/
structure Standard (c : Config) : Prop where
  crcWidth : c.crcWidth = 32
  poly : c.poly = 0x04C11DB7#32
  polyFull : c.polyFull = 0x104C11DB7#33
  init : c.init = 0xFFFFFFFF#32
  refin : c.refin = false
  refout : c.refout = false
  xorout : c.xorout = 0#32
  wordBytes : c.wordBytes = 4
  nacc : c.nacc = 2
  frameBytes : c.frameBytes = 8
  respMinBytes : c.respMinBytes = 3
  rxMaxBytes : c.rxMaxBytes = 8
  pageBytes : c.pageBytes = 1024
  wordsPerPage : c.wordsPerPage = 256
  codeWriteBuffer : c.codeWriteBuffer = 1#8
  codeWritePage : c.codeWritePage = 2#8
  codeWriteCrc : c.codeWriteCrc = 3#8
  codePing : c.codePing = 4#8
  codeSetId : c.codeSetId = 5#8
  statusOk : c.statusOk = 0#8
  addrBroadcast : c.addrBroadcast = 0#8
  addrMax : c.addrMax = 254#8
  addrNever : c.addrNever = 255#8

end Config

/-- The five commands (R23, R44). -/
inductive Command where
  | writeBuffer
  | writePage
  | writeCrc
  | ping
  | setId
  deriving DecidableEq, Repr

/-- `code(c)` (R23), taken from the configuration (R97). -/
def Command.code (c : Config) : Command → Byte
  | .writeBuffer => c.codeWriteBuffer
  | .writePage => c.codeWritePage
  | .writeCrc => c.codeWriteCrc
  | .ping => c.codePing
  | .setId => c.codeSetId

end Sys2Proof
end

