-- ==== Sys2Proof/Machine/Interface.lean ====
section
/-! DEFINITION. What passes between the requester and the block (spec/30_encoding.md R51, R41, R55;
spec/60_exceptions.md R130; spec/70_reset_and_hazards.md R140): the request record, the inputs, the errors, the result
record. -/

namespace Sys2Proof.Machine

/-- The request record of R51: a field not used by the selected operation is ignored and may hold anything. -/
structure Request where
  op : BitVec 3
  k : Acc := .page
  w : List Byte := []
  board : Byte := 0#8
  cmd : Byte := 0#8
  param1 : Half := 0#16
  param2 : List Byte := []
  rx : Frame := ⟨0, []⟩
  expBoard : Byte := 0#8
  expCmd : Byte := 0#8
  deriving DecidableEq, Repr

/-- The identifier a frame row's frame travels on (R41, R55): the command identifier, or the `n`-th recognised
response identifier. -/
inductive Channel where
  | command
  | response (n : Nat)
  deriving DecidableEq, Repr

/-- What can reach the block between two steps: a request (R51), a frame of the table's CMDFRAME or RESPFRAME format for
the decoders (log 5), or reset (R140). -/
inductive Input where
  | request (r : Request)
  | busFrame (ch : Channel) (data : List Byte)
  | reset
  deriving DecidableEq, Repr

/-- The errors of R126 to R129, with the information each records (R130). -/
inductive OpError where
  /-- `FRAME.ENCODE` with a `param2` of `n` bytes, `n` not 4 (R126). -/
  | badParam2Length (n : Nat)
  /-- `CRC.UPDATE` with a word of `n` bytes, `n` not 4 (R127). -/
  | badWordLength (n : Nat)
  /-- `FRAME.ENCODE` or `FRAME.MATCH` with the code `c`, not one of the five (R128). -/
  | illegalCommand (c : Byte)
  /-- `op = 7` (R129). -/
  | illegalOp
  deriving DecidableEq, Repr

/-- The fields `FRAME.RDEC` gives when `valid = 1` (R80). -/
structure ResponseFields where
  board : Byte
  code : Byte
  status : Byte
  deriving DecidableEq, Repr

/-- The fields `FRAME.CDEC` gives when `valid = 1` (R81). -/
structure CommandFields where
  known : Bool
  board : Byte
  code : Byte
  param1 : Half
  param2 : Bytes4
  deriving DecidableEq, Repr

/-- The result record of R51: an error, or the operation's own result. Fields that "have no value" (R78, R80, R81; U8)
are absent: `matched none` is `match = 0`, `response none` and `command none` are `valid = 0`. -/
inductive Result where
  /-- `CRC.INIT`, `CRC.UPDATE`: nothing. -/
  | done
  /-- `CRC.DIGEST`: the 4 bytes. -/
  | digest (d : Bytes4)
  /-- `FRAME.ENCODE`: the frame. -/
  | frame (f : Frame)
  /-- `FRAME.MATCH`: `match`, and the status when `match = 1`. -/
  | matched (status : Option Byte)
  /-- `FRAME.RDEC`: `valid`, and the fields when `valid = 1`. -/
  | response (fields : Option ResponseFields)
  /-- `FRAME.CDEC`: `valid`, and the fields when `valid = 1`. -/
  | command (fields : Option CommandFields)
  /-- The operation raised an error (R125). -/
  | error (e : OpError)
  deriving DecidableEq, Repr

end Sys2Proof.Machine
end

