-- ==== Sys2Proof/Machine/Operands.lean ====
section
/-! DEFINITION. The operand forms and byte orders (spec/00_scope.md R9; spec/20_memory.md R26 to R31;
spec/30_encoding.md R40, R42, R45, R46). Each byte order is decided here, once. -/

namespace Sys2Proof.Machine

/-- The accumulator that the bit `k` selects (R14: 0 page, 1 image). -/
def accOfBit : BitVec 1 → Acc
  | 0#1 => .page
  | _ => .image

/-- The bit `k` of an accumulator (R14). -/
def bitOfAcc : Acc → BitVec 1
  | .page => 0#1
  | .image => 1#1

/-- The other accumulator. -/
def otherAcc : Acc → Acc
  | .page => .image
  | .image => .page

/-- A 4-byte value as a byte sequence, first byte first (R9). -/
def bytesOf (b : Bytes4) : List Byte := [b.b0, b.b1, b.b2, b.b3]

/-- A byte sequence of length 4, or nothing (the length checks of R63 and R75). -/
def bytes4? : List Byte → Option Bytes4
  | [b0, b1, b2, b3] => some ⟨b0, b1, b2, b3⟩
  | _ => none

/-- `rev4` (R9). -/
def rev4 (b : Bytes4) : Bytes4 := ⟨b.b3, b.b2, b.b1, b.b0⟩

/-- `be32` (R9): the first byte is the most significant. -/
def be32 (b : Bytes4) : Word := b.b0 ++ b.b1 ++ b.b2 ++ b.b3

/-- `bytes_be32` (R9). -/
def bytesBe32 (v : Word) : Bytes4 :=
  ⟨v.extractLsb' 24 8, v.extractLsb' 16 8, v.extractLsb' 8 8, v.extractLsb' 0 8⟩

/-- `le32` (R9): the first byte is the least significant. -/
def le32 (b : Bytes4) : Word := b.b3 ++ b.b2 ++ b.b1 ++ b.b0

/-- `bytes_le32` (R9). -/
def bytesLe32 (v : Word) : Bytes4 :=
  ⟨v.extractLsb' 0 8, v.extractLsb' 8 8, v.extractLsb' 16 8, v.extractLsb' 24 8⟩

/-- `le16` (R9): `param1` from `data[2]`, `data[3]` (R26, R45). -/
def le16 (lo hi : Byte) : Half := hi ++ lo

/-- `param1[7:0]`, which `data[2]` carries (R26, R45). -/
def lowByte (p : Half) : Byte := p.extractLsb' 0 8

/-- `param1[15:8]`, which `data[3]` carries (R26, R45). -/
def highByte (p : Half) : Byte := p.extractLsb' 8 8

/-- The payload of a command frame (R40): address, code, `param1` little-endian, `param2` byte-reversed. -/
def commandPayload (board code : Byte) (param1 : Half) (param2 : Bytes4) : List Byte :=
  [board, code, lowByte param1, highByte param1] ++ bytesOf (rev4 param2)

/-- The payload of a response frame (R48, R50): address, code, status, then bytes with no meaning. -/
def responsePayload (board code status : Byte) (tail : List Byte) : List Byte :=
  board :: code :: status :: tail

/-- The payload value of `n` bytes as one number, first byte most significant (R42: `P` for 8 bytes). -/
def payloadOfNat (n w : Nat) : List Byte :=
  (List.range n).map fun i => BitVec.ofNat 8 (w >>> (8 * (n - 1 - i)))

end Sys2Proof.Machine
end

