-- ==== Sys2Proof/Syntax.lean ====
section
/-! DEFINITION. The instructions: one constructor per row of spec/opcode_table.json (spec/30_encoding.md R52, R54, R58;
spec/42_commands.md R91 to R96). -/

namespace Sys2Proof

/-- One constructor per row of the opcode table. The first eight are the values of `op` (R52), with the fields of the
request record that the operation uses (R51); the next five are the command frames (R47), with their operands in logical
order; the last is the response frame (R48, R50), on the `channel`-th recognised response identifier, with the payload
bytes that follow the status. -/
inductive Instr where
  /-- `CRC.INIT k` (R62). -/
  | crcInit (k : Acc)
  /-- `CRC.UPDATE k, w` (R63); the length of `w` is checked when it runs. -/
  | crcUpdate (k : Acc) (w : List Byte)
  /-- `CRC.DIGEST k` (R66). -/
  | crcDigest (k : Acc)
  /-- `FRAME.ENCODE board, cmd, param1, param2` (R75); `cmd` and the length of `param2` are checked when it runs. -/
  | frameEncode (board : Byte) (cmd : Byte) (param1 : Half) (param2 : List Byte)
  /-- `FRAME.MATCH rx, exp_board, exp_cmd` (R78). -/
  | frameMatch (rx : Frame) (expBoard : Byte) (expCmd : Byte)
  /-- `FRAME.RDEC rx` (R80). -/
  | frameRdec (rx : Frame)
  /-- `FRAME.CDEC rx` (R81). -/
  | frameCdec (rx : Frame)
  /-- `op = 7` (R54, R129). -/
  | reservedOp7
  /-- A `WriteBuffer` command frame (R91). -/
  | writeBuffer (addr : Byte) (param1 : Half) (param2 : Bytes4)
  /-- A `WritePage` command frame (R92). -/
  | writePage (addr : Byte) (param1 : Half) (param2 : Bytes4)
  /-- A `WriteCrc` command frame (R93). -/
  | writeCrc (addr : Byte) (param1 : Half) (param2 : Bytes4)
  /-- A `Ping` command frame (R94). -/
  | ping (addr : Byte) (param1 : Half) (param2 : Bytes4)
  /-- A `SetId` command frame (R95). -/
  | setId (addr : Byte) (param1 : Half) (param2 : Bytes4)
  /-- A response frame (R96). -/
  | response (channel : Nat) (addr : Byte) (code : Byte) (status : Byte) (tail : List Byte)
  deriving DecidableEq, Repr

end Sys2Proof
end

