-- ==== Sys2Proof/Decode.lean ====
section
/-! DEFINITION. From what stands at the interface to an instruction, and back (spec/30_encoding.md R40, R42, R44 to R48,
R51, R52; spec/opcode_table.json). Decoding is total; an input that is no row of the table is rejected by name. -/

namespace Sys2Proof

open Machine

/-- Why an input is no row of the opcode table. -/
inductive DecodeError where
  /-- A frame on the command identifier whose byte 1 is not a command code (R54). -/
  | unassignedCode (code : Byte)
  /-- A frame on the command identifier that has not 8 bytes (R40). -/
  | commandLength (n : Nat)
  /-- A frame on a response identifier that has fewer than 3 bytes (R48). -/
  | responseLength (n : Nat)
  /-- Reset is an event, not an operation (R140). -/
  | resetEvent
  deriving DecidableEq, Repr

/-- R52: the operation that `op` selects, with the fields it uses (R51). -/
def decodeRequest (r : Request) : Instr :=
  match r.op with
  | 0#3 => .crcInit r.k
  | 1#3 => .crcUpdate r.k r.w
  | 2#3 => .crcDigest r.k
  | 3#3 => .frameEncode r.board r.cmd r.param1 r.param2
  | 4#3 => .frameMatch r.rx r.expBoard r.expCmd
  | 5#3 => .frameRdec r.rx
  | 6#3 => .frameCdec r.rx
  | _ => .reservedOp7

/-- R44, R47: the command frame that byte 1 selects. -/
def decodeCommand (c : Config) : List Byte → Except DecodeError Instr
  | [a, code, l, h, s, r, q, p] =>
    if code = c.codeWriteBuffer then .ok (.writeBuffer a (le16 l h) (rev4 ⟨s, r, q, p⟩))
    else if code = c.codeWritePage then .ok (.writePage a (le16 l h) (rev4 ⟨s, r, q, p⟩))
    else if code = c.codeWriteCrc then .ok (.writeCrc a (le16 l h) (rev4 ⟨s, r, q, p⟩))
    else if code = c.codePing then .ok (.ping a (le16 l h) (rev4 ⟨s, r, q, p⟩))
    else if code = c.codeSetId then .ok (.setId a (le16 l h) (rev4 ⟨s, r, q, p⟩))
    else .error (.unassignedCode code)
  | data => .error (.commandLength data.length)

/-- R48, R50: the response frame. -/
def decodeResponse (n : Nat) : List Byte → Except DecodeError Instr
  | a :: code :: status :: tail => .ok (.response n a code status tail)
  | data => .error (.responseLength data.length)

/-- The instruction an input stands for. R55: the identifier alone tells a response from a command. -/
def decode (c : Config) : Input → Except DecodeError Instr
  | .request r => .ok (decodeRequest r)
  | .busFrame .command data => decodeCommand c data
  | .busFrame (.response n) data => decodeResponse n data
  | .reset => .error .resetEvent

/-- The input that an instruction is presented as: a request with the operation's `op` (R52) and fields (R51), or a
frame with the payload of R47 or R48. -/
def encode (c : Config) : Instr → Input
  | .crcInit k => .request { op := 0#3, k := k }
  | .crcUpdate k w => .request { op := 1#3, k := k, w := w }
  | .crcDigest k => .request { op := 2#3, k := k }
  | .frameEncode board cmd param1 param2 =>
    .request { op := 3#3, board := board, cmd := cmd, param1 := param1, param2 := param2 }
  | .frameMatch rx expBoard expCmd => .request { op := 4#3, rx := rx, expBoard := expBoard, expCmd := expCmd }
  | .frameRdec rx => .request { op := 5#3, rx := rx }
  | .frameCdec rx => .request { op := 6#3, rx := rx }
  | .reservedOp7 => .request { op := 7#3 }
  | .writeBuffer a param1 param2 => .busFrame .command (commandPayload a c.codeWriteBuffer param1 param2)
  | .writePage a param1 param2 => .busFrame .command (commandPayload a c.codeWritePage param1 param2)
  | .writeCrc a param1 param2 => .busFrame .command (commandPayload a c.codeWriteCrc param1 param2)
  | .ping a param1 param2 => .busFrame .command (commandPayload a c.codePing param1 param2)
  | .setId a param1 param2 => .busFrame .command (commandPayload a c.codeSetId param1 param2)
  | .response n a code status tail => .busFrame (.response n) (responsePayload a code status tail)

/-- The input that an opcode-table word stands for, its operand words zero (log 11): the 3 bits `op` of a request, the
64-bit payload value `P` of a command frame (R42), or the 24 bits of a response frame's first 3 bytes (R58). A zero
operand word of `CRC.UPDATE` and `FRAME.ENCODE` is 4 zero bytes. -/
def tableInput (nbits w : Nat) : Option Input :=
  match nbits with
  | 8 => some (.request { op := BitVec.ofNat 3 w, w := [0#8, 0#8, 0#8, 0#8], param2 := [0#8, 0#8, 0#8, 0#8] })
  | 64 => some (.busFrame .command (payloadOfNat 8 w))
  | 24 => some (.busFrame (.response 0) (payloadOfNat 3 w))
  | _ => none

/-- The instruction the decoder reads from an opcode-table word. -/
def decodeTableWord (nbits w : Nat) : Option Instr :=
  match tableInput nbits w with
  | some x => (decode Config.deployment x).toOption
  | none => none

end Sys2Proof
end

