-- ==== Sys2Proof/Machine/Flags.lean ====
section
/-! DEFINITION. The block has no flags (spec/10_state.md R17). What it computes instead are the one-bit parts of results,
`match`, `valid` and `known`, from two predicates (spec/30_encoding.md R41, R44; spec/41_frame_codec.md R78, R80, R81) and
the error code of a result (spec/60_exceptions.md R130). -/

namespace Sys2Proof.Machine

/-- `is_command_code(x)` (R44, 41_frame_codec.md): one of the configuration's five codes. -/
def isCommandCode (c : Config) (x : Byte) : Bool := c.commandCodes.contains x

/-- `is_resp_id(x)` (R41): membership of the recognised range, with no keying to a board address. -/
def isRespId (c : Config) (x : Nat) : Bool := decide (c.respIdBase ≤ x) && decide (x < c.respIdBase + c.respIdCount)

/-- The identifier a channel stands for (R41). -/
def channelId (c : Config) : Channel → Nat
  | .command => c.cmdId
  | .response n => c.respIdBase + n

/-- `FRAME.RDEC`'s fields, absent when `valid = 0` (R80). No byte at or beyond the length is read. -/
def responseFields (c : Config) (rx : Frame) : Option ResponseFields :=
  if isRespId c rx.id && decide (c.respMinBytes ≤ rx.len) then
    match rx.data with
    | board :: code :: status :: _ => some ⟨board, code, status⟩
    | _ => none
  else none

/-- `FRAME.MATCH`'s status, absent when `match = 0` (R78): the identifier is recognised, the length is at least
`RESP_MIN_BYTES`, byte 0 is the expected board and byte 1 the expected code. -/
def matchStatus (c : Config) (rx : Frame) (expBoard expCmd : Byte) : Option Byte :=
  if isRespId c rx.id && decide (c.respMinBytes ≤ rx.len) then
    match rx.data with
    | board :: code :: status :: _ => if board = expBoard ∧ code = expCmd then some status else none
    | _ => none
  else none

/-- `FRAME.CDEC`'s fields, absent when `valid = 0` (R81). -/
def commandFields (c : Config) (rx : Frame) : Option CommandFields :=
  if decide (rx.id = c.cmdId) && decide (rx.len = c.frameBytes) then
    match rx.data with
    | [board, code, d2, d3, d4, d5, d6, d7] =>
      some ⟨isCommandCode c code, board, code, le16 d2 d3, rev4 ⟨d4, d5, d6, d7⟩⟩
    | _ => none
  else none

/-- The number of an error (R130). -/
def OpError.number : OpError → Nat
  | .badParam2Length _ => 1
  | .badWordLength _ => 2
  | .illegalCommand _ => 3
  | .illegalOp => 4

/-- The `err` field of a result record (R130): 0 for a normal result. -/
def Result.err : Result → Nat
  | .error e => e.number
  | .done | .digest _ | .frame _ | .matched _ | .response _ | .command _ => 0

/-- The `match` bit of a result (R51, R78). -/
def Result.matchBit : Result → Option Bool
  | .matched status => some status.isSome
  | .done | .digest _ | .frame _ | .response _ | .command _ | .error _ => none

/-- The `valid` bit of a result (R51, R80, R81). -/
def Result.validBit : Result → Option Bool
  | .response fields => some fields.isSome
  | .command fields => some fields.isSome
  | .done | .digest _ | .frame _ | .matched _ | .error _ => none

end Sys2Proof.Machine
end

