-- ==== Sys2Proof/Machine/State.lean ====
section
/-! DEFINITION. The state (spec/10_state.md R13 to R24): two 32-bit accumulators, which is all the spec gives the block,
and the model's own three fields, the configuration (R18), the inputs not yet presented (R16) and the result port (R51). -/

namespace Sys2Proof.Machine

/-- The machine. `crcPage` and `crcImage` are `CRC[0]` and `CRC[1]` (R13, R14). -/
structure State where
  /-- `CRC[0]`, alias `CRC_PAGE` (R14). -/
  crcPage : Word
  /-- `CRC[1]`, alias `CRC_IMAGE` (R14). -/
  crcImage : Word
  /-- The model's own: the configuration, fixed for the life of an instance (R18; log 3). -/
  cfg : Config
  /-- The model's own: what the requester has yet to present, oldest first (R16, R36; log 1). -/
  inputs : List Input
  /-- The model's own: the result record of the last operation (R51; log 2). -/
  result : Option Result
  deriving DecidableEq, Repr

/-- Reasons for a fault: there is none. An error of an operation is its result, "not a fault of the machine" (R125), and
nothing else stops the block. -/
inductive Fault where
  deriving DecidableEq, Repr

/-- Reasons for a refusal. -/
inductive Refusal where
  /-- `exec` answers this for an instruction that has no meaning yet; safe. No arm does. -/
  | notModelled (mnemonic : String)
  /-- The step answers this for an input whose frame has `n` bytes, more than `RX_MAX_BYTES`: R54 says such a frame
  cannot be presented (D15); safe. -/
  | frameTooLong (n : Nat)
  deriving DecidableEq, Repr

/-- The machine right after reset (R24, R140): both accumulators hold `INIT`; nothing presented, no result. -/
def State.reset : State where
  crcPage := Config.deployment.init
  crcImage := Config.deployment.init
  cfg := Config.deployment
  inputs := []
  result := none

end Sys2Proof.Machine
end

