-- ==== Sys2Proof/Machine/Ops.lean ====
section
/-! DEFINITION. The named operations: the accumulators' one read and one write (spec/10_state.md R13 to R15), the CRC
arithmetic (spec/00_scope.md R10; spec/40_crc.md R60, R64), delivering a result or an error (spec/30_encoding.md R51;
spec/60_exceptions.md R125), reset as an event (spec/70_reset_and_hazards.md R140). -/

namespace Sys2Proof.Machine

/-- The outcome of an operation of the block. -/
abbrev Ran := Host.Outcome State Fault Refusal

/-- Reads `CRC[k]` (R9, R14). -/
def State.getCrc (s : State) : Acc → Word
  | .page => s.crcPage
  | .image => s.crcImage

/-- `CRC[k] <- v` (R9, R14). -/
def State.setCrc (s : State) (k : Acc) (v : Word) : State :=
  match k with
  | .page => { s with crcPage := v }
  | .image => { s with crcImage := v }

/-- The result record is presented to the requester (R51). -/
def State.setResult (s : State) (r : Result) : State := { s with result := some r }

/-- The inputs still to be presented. -/
def State.setInputs (s : State) (xs : List Input) : State := { s with inputs := xs }

/-- `result <- r` (R9): the operation ends with its result. -/
def complete (r : Result) (s : State) : Ran := .next (s.setResult r)

/-- `raise` (R9, R125): the operation ends at once with the error as its result and changes no other state; nothing is
saved, no control goes anywhere, and nothing is left to return from (R136). -/
def raiseError (e : OpError) (s : State) : Ran := complete (.error e) s

/-- Reset (R140): both accumulators hold `INIT`. It is no operation, so no result record stands (log 17). -/
def applyReset (s : State) : State := { s with crcPage := s.cfg.init, crcImage := s.cfg.init, result := none }

/-- `crc_bit(r, b)` (R10). -/
def crcBit (c : Config) (r : Word) (b : Bool) : Word :=
  if (r.getLsbD 31 != b) then (r <<< 1) ^^^ c.poly else r <<< 1

/-- The bits of a byte, from bit 7 down to bit 0. -/
def bitsMsbFirst (x : Byte) : List Bool :=
  [x.getLsbD 7, x.getLsbD 6, x.getLsbD 5, x.getLsbD 4, x.getLsbD 3, x.getLsbD 2, x.getLsbD 1, x.getLsbD 0]

/-- The bits of a byte in the order they are consumed: most significant first unless `REFIN` (R7; log 14). -/
def messageBits (c : Config) (x : Byte) : List Bool :=
  if c.refin then (bitsMsbFirst x).reverse else bitsMsbFirst x

/-- `crc_byte(r, x)` (R10). -/
def crcByte (c : Config) (r : Word) (x : Byte) : Word := (messageBits c x).foldl (crcBit c) r

/-- `crc_word(r, w)` (R60): the bytes of the word are consumed first byte first (R29). -/
def crcWord (c : Config) (r : Word) (w : List Byte) : Word := w.foldl (crcByte c) r

/-- `crc_stream(r, ws)` (R64). -/
def crcStream (c : Config) (r : Word) (ws : List (List Byte)) : Word := ws.foldl (crcWord c) r

/-- The 32-bit value whose bytes are the digest (R66): the register, bit-reversed if `REFOUT` (R7; log 14), XORed with
`XOROUT`. -/
def digestValue (c : Config) (r : Word) : Word := (if c.refout then r.reverse else r) ^^^ c.xorout

/-- The digest (R66): most significant byte first (R30). -/
def digestBytes (c : Config) (r : Word) : Bytes4 := bytesBe32 (digestValue c r)

/-- The frame that `FRAME.ENCODE` makes of legal operands (R75): `id = CMD_ID` and the payload of R40. -/
def commandFrame (c : Config) (board code : Byte) (param1 : Half) (param2 : Bytes4) : Frame :=
  ⟨c.cmdId, commandPayload board code param1 param2⟩

/-- A frame with the given payload on the identifier of a channel (R41). -/
def channelFrame (c : Config) (ch : Channel) (data : List Byte) : Frame := ⟨channelId c ch, data⟩

/-- `FRAME.RDEC` on a frame (R80). -/
def decodeAsResponse (rx : Frame) (s : State) : Ran := complete (.response (responseFields s.cfg rx)) s

/-- `FRAME.CDEC` on a frame (R81). -/
def decodeAsCommand (rx : Frame) (s : State) : Ran := complete (.command (commandFields s.cfg rx)) s

/-- A frame off the bus at the decoder that its identifier selects (R55, R102; log 5, log 6). -/
def decodeBusFrame (ch : Channel) (data : List Byte) (s : State) : Ran :=
  match ch with
  | .command => decodeAsCommand (channelFrame s.cfg ch data) s
  | .response _ => decodeAsResponse (channelFrame s.cfg ch data) s

end Sys2Proof.Machine
end

