-- ==== Sys2Proof/Machine/Codec.lean ====
section
/-! DEFINITION. The frame operations (spec/41_frame_codec.md R75 to R83). -/

namespace Sys2Proof.Machine

/-- `FRAME.ENCODE board, cmd, param1, param2` (R75): the code is tested before the length (R131); nothing else is
checked (R76). -/
def execFrameEncode (board cmd : Byte) (param1 : Half) (param2 : List Byte) (s : State) : Ran :=
  if isCommandCode s.cfg cmd then
    match bytes4? param2 with
    | some p2 => complete (.frame (commandFrame s.cfg board cmd param1 p2)) s
    | none => raiseError (.badParam2Length param2.length) s
  else raiseError (.illegalCommand cmd) s

/-- `FRAME.MATCH rx, exp_board, exp_cmd` (R78, R79). -/
def execFrameMatch (rx : Frame) (expBoard expCmd : Byte) (s : State) : Ran :=
  if isCommandCode s.cfg expCmd then complete (.matched (matchStatus s.cfg rx expBoard expCmd)) s
  else raiseError (.illegalCommand expCmd) s

/-- `FRAME.RDEC rx` (R80). -/
def execFrameRdec (rx : Frame) (s : State) : Ran := decodeAsResponse rx s

/-- `FRAME.CDEC rx` (R81). -/
def execFrameCdec (rx : Frame) (s : State) : Ran := decodeAsCommand rx s

end Sys2Proof.Machine
end

