-- ==== Sys2Proof/Machine/Crc.lean ====
section
/-! DEFINITION. The CRC operations (spec/40_crc.md R62, R63, R66). -/

namespace Sys2Proof.Machine

/-- `CRC.INIT k` (R62). -/
def execCrcInit (k : Acc) (s : State) : Ran := complete .done (s.setCrc k s.cfg.init)

/-- `CRC.UPDATE k, w` (R63): a word that has not `WORD_BYTES` bytes is refused whole (R127). -/
def execCrcUpdate (k : Acc) (w : List Byte) (s : State) : Ran :=
  if w.length ≠ s.cfg.wordBytes then raiseError (.badWordLength w.length) s
  else complete .done (s.setCrc k (crcWord s.cfg (s.getCrc k) w))

/-- `CRC.DIGEST k` (R66): no state is written. -/
def execCrcDigest (k : Acc) (s : State) : Ran := complete (.digest (digestBytes s.cfg (s.getCrc k))) s

end Sys2Proof.Machine
end

