-- ==== Sys2Proof/Machine/Frames.lean ====
section
/-! DEFINITION. The frame rows (spec/42_commands.md R90 to R96). The block does not execute commands, it encodes and
decodes them; a frame that stands at its interface is decoded: a command frame as `FRAME.CDEC` decodes it (R81), a
response frame as `FRAME.RDEC` decodes it (R80). DESIGN CHOICE, log 5. -/

namespace Sys2Proof.Machine

/-- A `WriteBuffer` frame (R91). -/
def execWriteBuffer (addr : Byte) (param1 : Half) (param2 : Bytes4) (s : State) : Ran :=
  decodeAsCommand (commandFrame s.cfg addr s.cfg.codeWriteBuffer param1 param2) s

/-- A `WritePage` frame (R92). -/
def execWritePage (addr : Byte) (param1 : Half) (param2 : Bytes4) (s : State) : Ran :=
  decodeAsCommand (commandFrame s.cfg addr s.cfg.codeWritePage param1 param2) s

/-- A `WriteCrc` frame (R93). -/
def execWriteCrc (addr : Byte) (param1 : Half) (param2 : Bytes4) (s : State) : Ran :=
  decodeAsCommand (commandFrame s.cfg addr s.cfg.codeWriteCrc param1 param2) s

/-- A `Ping` frame (R94). -/
def execPing (addr : Byte) (param1 : Half) (param2 : Bytes4) (s : State) : Ran :=
  decodeAsCommand (commandFrame s.cfg addr s.cfg.codePing param1 param2) s

/-- A `SetId` frame (R95). -/
def execSetId (addr : Byte) (param1 : Half) (param2 : Bytes4) (s : State) : Ran :=
  decodeAsCommand (commandFrame s.cfg addr s.cfg.codeSetId param1 param2) s

/-- A response frame (R96). -/
def execResponse (channel : Nat) (addr code status : Byte) (tail : List Byte) (s : State) : Ran :=
  decodeAsResponse (channelFrame s.cfg (.response channel) (responsePayload addr code status tail)) s

end Sys2Proof.Machine
end

