-- ==== Sys2Proof/Machine/Reserved.lean ====
section
/-! DEFINITION. The reserved operation select (spec/30_encoding.md R54; spec/60_exceptions.md R129). -/

namespace Sys2Proof.Machine

/-- `op = 7`: error `IllegalOp`, no state change (R129). -/
def execReservedOp7 (s : State) : Ran := raiseError .illegalOp s

end Sys2Proof.Machine
end

