-- ==== Sys2Proof/Machine/Dispatch.lean ====
section
/-! DEFINITION. The meaning of every instruction: one arm per row of spec/opcode_table.json. -/

namespace Sys2Proof.Machine

def exec (i : Instr) (s : State) : Host.Outcome State Fault Refusal :=
  match i with
  | .crcInit k => Sys2Proof.Machine.execCrcInit k s
  | .crcUpdate k w => Sys2Proof.Machine.execCrcUpdate k w s
  | .crcDigest k => Sys2Proof.Machine.execCrcDigest k s
  | .frameEncode board cmd param1 param2 => Sys2Proof.Machine.execFrameEncode board cmd param1 param2 s
  | .frameMatch rx expBoard expCmd => Sys2Proof.Machine.execFrameMatch rx expBoard expCmd s
  | .frameRdec rx => Sys2Proof.Machine.execFrameRdec rx s
  | .frameCdec rx => Sys2Proof.Machine.execFrameCdec rx s
  | .reservedOp7 => Sys2Proof.Machine.execReservedOp7 s
  | .writeBuffer addr param1 param2 => Sys2Proof.Machine.execWriteBuffer addr param1 param2 s
  | .writePage addr param1 param2 => Sys2Proof.Machine.execWritePage addr param1 param2 s
  | .writeCrc addr param1 param2 => Sys2Proof.Machine.execWriteCrc addr param1 param2 s
  | .ping addr param1 param2 => Sys2Proof.Machine.execPing addr param1 param2 s
  | .setId addr param1 param2 => Sys2Proof.Machine.execSetId addr param1 param2 s
  | .response channel addr code status tail => Sys2Proof.Machine.execResponse channel addr code status tail s

end Sys2Proof.Machine
end

