-- ==== Sys2Proof/WellFormed.lean ====
section
/-! DEFINITION. Which instructions and inputs the interface can carry (spec/10_state.md R22; spec/30_encoding.md R41, R50,
R54). Operand values the block itself checks (word length, `param2` length, command code) are no part of it: those are
errors the block reports. -/

namespace Sys2Proof

/-- R22: at most `RX_MAX_BYTES` bytes, and an identifier of `ID_WIDTH` bits. -/
def Frame.wf (c : Config) (f : Frame) : Bool := decide (f.len ≤ c.rxMaxBytes) && decide (f.id < 2 ^ c.idWidth)

/-- The length of the frame an instruction takes off the bus or from the requester; 0 if it takes none. -/
def Instr.frameLen : Instr → Nat
  | .crcInit _ => 0
  | .crcUpdate _ _ => 0
  | .crcDigest _ => 0
  | .frameEncode _ _ _ _ => 0
  | .frameMatch rx _ _ => rx.len
  | .frameRdec rx => rx.len
  | .frameCdec rx => rx.len
  | .reservedOp7 => 0
  | .writeBuffer _ _ _ => 8
  | .writePage _ _ _ => 8
  | .writeCrc _ _ _ => 8
  | .ping _ _ _ => 8
  | .setId _ _ _ => 8
  | .response _ _ _ _ tail => 3 + tail.length

/-- R54: a frame of more than `RX_MAX_BYTES` bytes cannot be presented. -/
def Instr.fits (c : Config) (i : Instr) : Bool := decide (i.frameLen ≤ c.rxMaxBytes)

/-- An instruction the interface can carry: frames as R22 has them, and a response on a recognised identifier (R41). -/
def Instr.wf (c : Config) : Instr → Bool
  | .crcInit _ => true
  | .crcUpdate _ _ => true
  | .crcDigest _ => true
  | .frameEncode _ _ _ _ => true
  | .frameMatch rx _ _ => rx.wf c
  | .frameRdec rx => rx.wf c
  | .frameCdec rx => rx.wf c
  | .reservedOp7 => true
  | .writeBuffer _ _ _ => decide (8 ≤ c.rxMaxBytes)
  | .writePage _ _ _ => decide (8 ≤ c.rxMaxBytes)
  | .writeCrc _ _ _ => decide (8 ≤ c.rxMaxBytes)
  | .ping _ _ _ => decide (8 ≤ c.rxMaxBytes)
  | .setId _ _ _ => decide (8 ≤ c.rxMaxBytes)
  | .response channel _ _ _ tail => decide (3 + tail.length ≤ c.rxMaxBytes) && decide (channel < c.respIdCount)

namespace Machine

/-- A channel that exists (R41). -/
def Channel.wf (c : Config) : Channel → Bool
  | .command => true
  | .response n => decide (n < c.respIdCount)

/-- An input the interface can carry. A request's `rx` is an operand of `op` 4, 5 and 6 only; for the others it is
ignored and may hold anything (R51). -/
def Input.wf (c : Config) : Input → Bool
  | .request r => !(r.op == 4#3 || r.op == 5#3 || r.op == 6#3) || r.rx.wf c
  | .busFrame ch data => ch.wf c && decide (data.length ≤ c.rxMaxBytes)
  | .reset => true

end Machine
end Sys2Proof
end

