-- ==== Sys2Proof/Machine/Present.lean ====
section
/-! DEFINITION. Presenting one input to the block (spec/30_encoding.md R51, R54, R55; spec/70_reset_and_hazards.md R140),
and placing an input where the next step takes it. -/

namespace Sys2Proof.Machine

/-- Runs an instruction whose frame, if it takes one, can be presented (R54, D15; log 7). -/
def execIfFits (i : Instr) (s : State) : Ran :=
  if i.fits s.cfg then exec i s else .refused (.frameTooLong i.frameLen)

/-- The block performs one input to completion (R36). Reset is performed (R140); an instruction runs; a frame that is no
row of the table is decoded all the same (R54: `known = 0`; R80, R81: `valid = 0`; log 6). -/
def present (x : Input) (s : State) : Ran :=
  match x with
  | .reset => .next (applyReset s)
  | .request r => execIfFits (decodeRequest r) s
  | .busFrame ch data =>
    match decode s.cfg (.busFrame ch data) with
    | .ok i => execIfFits i s
    | .error _ =>
      if data.length ≤ s.cfg.rxMaxBytes then decodeBusFrame ch data s else .refused (.frameTooLong data.length)

/-- `x` stands in front of what the requester has yet to present. -/
def State.pushInput (s : State) (x : Input) : State := s.setInputs (x :: s.inputs)

end Sys2Proof.Machine
end

