-- ==== Sys2Proof/Machine/Step.lean ====
section
/-! DEFINITION. One step (spec/10_state.md R16; spec/20_memory.md R36): the block takes the oldest input and performs it;
with no input it waits, and nothing changes (spec/60_exceptions.md R139; log 10). -/

namespace Sys2Proof.Machine

/-- One step of the machine. -/
def step (s : State) : Host.Outcome State Fault Refusal :=
  match s.inputs with
  | [] => .next s
  | x :: rest => present x (s.setInputs rest)

/-- The instruction whose opcode-table bits are `w`, as the input the next step takes (log 16). -/
def State.withFetchWord (s : State) (nbits w : Nat) : State :=
  match tableInput nbits w with
  | some x => s.pushInput x
  | none => s

end Sys2Proof.Machine
end

