-- ==== Sys2Proof/Machine/Client.lean ====
section
/-! DEFINITION. The environment's Transport Adapter and Bootloader Client (spec/45_host_sequences.md R101 to R111;
spec/60_exceptions.md R132, R133). They drive the block only through `step` (R100). What the bus does is data: one
`Attempt` for each frame sent (log 18). -/

namespace Sys2Proof.Environment

open Machine

/-- What the transport does with one frame handed to `send`, and what `try_receive` then returns, in order, before the
attempt's deadline (R101, R102, R107). -/
structure Attempt where
  sendOk : Bool
  received : List Frame
  deriving DecidableEq, Repr

/-- The client's states (R103). -/
inductive ClientState where
  | idle
  | connecting
  | connected
  | awaitingReply
  | failed
  deriving DecidableEq, Repr

/-- The environment's errors (R132), and two of the model's: an image the environment refuses (D26), and an error of the
block's encoder passed on (R105, R126). -/
inductive EnvError where
  | transportError
  | noReply
  | deviceRejected (code : Byte)
  | connectionFailed
  | pageWriteFailed (page : Nat)
  | verificationFailed
  | invalidAddress
  | imageTooLarge
  | encodeFailed (r : Option Result)
  deriving DecidableEq, Repr

/-- The environment: the block it drives, what the bus will do, what was handed to `send` so far, the client's state. -/
structure Env where
  block : State
  /-- Oldest first; when none is left the peer is silent. -/
  world : List Attempt
  /-- Oldest first. -/
  sent : List Frame
  client : ClientState
  deriving DecidableEq, Repr

/-- Presents one request to the block and takes its result record (R51). A request the block refuses (a frame that cannot
be presented, R54) has no result and leaves everything as it was (R107: discarded). -/
def ask (r : Request) (e : Env) : Env × Option Result :=
  match step (e.block.pushInput (.request r)) with
  | .next s => ({ e with block := s }, s.result)
  | .fault _ => (e, none)
  | .refused _ => (e, none)

/-- `FRAME.ENCODE board, code(cmd), param1, param2`, as a request (R90). -/
def encodeRequest (c : Config) (board : Byte) (cmd : Command) (param1 : Half) (param2 : List Byte) : Request :=
  { op := 3#3, board := board, cmd := cmd.code c, param1 := param1, param2 := param2 }

/-- `FRAME.MATCH rx, exp_board, code(cmd)`, as a request. -/
def matchRequest (c : Config) (rx : Frame) (expBoard : Byte) (cmd : Command) : Request :=
  { op := 4#3, rx := rx, expBoard := expBoard, expCmd := cmd.code c }

/-- `FRAME.RDEC rx`, as a request. -/
def rdecRequest (rx : Frame) : Request := { op := 5#3, rx := rx }

/-- `send` (R101): the frame goes to the bus; the world's next attempt says what happens. A silent peer follows when the
world's script is at its end. -/
def sendFrame (f : Frame) (e : Env) : Env × Attempt :=
  match e.world with
  | [] => ({ e with sent := e.sent ++ [f] }, ⟨true, []⟩)
  | a :: rest => ({ e with sent := e.sent ++ [f], world := rest }, a)

/-- Waiting (R105, R107): every received frame is filtered, those that do not match are discarded, the first that matches
ends the wait with its status. -/
def awaitMatch (expBoard : Byte) (cmd : Command) : List Frame → Env → Env × Option Byte
  | [], e => (e, none)
  | rx :: rest, e =>
    match ask (matchRequest e.block.cfg rx expBoard cmd) e with
    | (e', some (.matched (some status))) => (e', some status)
    | (e', _) => awaitMatch expBoard cmd rest e'

/-- The attempts of `command_response` (R105): the same frame is sent again on every attempt. -/
def attemptLoop (f : Frame) (expBoard : Byte) (cmd : Command) : Nat → Env → Env × Except EnvError Byte
  | 0, e => (e, .error .noReply)
  | n + 1, e =>
    match sendFrame f e with
    | (e1, a) =>
      if a.sendOk then
        match awaitMatch expBoard cmd a.received e1 with
        | (e2, some status) =>
          if status = e2.block.cfg.statusOk then (e2, .ok status) else (e2, .error (.deviceRejected status))
        | (e2, none) => attemptLoop f expBoard cmd n e2
      else (e1, .error .transportError)

/-- `Connected` after a success, `Failed` after `NoReply` or `DeviceRejected` (R103, conflict C7; log 22). Neither says where
a `TransportError` or an error of the encoder leaves the client: `Failed` too. DESIGN CHOICE, log 33. -/
def settleClient {α : Type} (x : Env × Except EnvError α) : Env × Except EnvError α :=
  match x with
  | (e, .ok a) => ({ e with client := .connected }, .ok a)
  | (e, .error r) => ({ e with client := .failed }, .error r)

/-- `command_response` (R105): encode once, then up to `maxTries` attempts. `expBoard` differs from `board` for `SetId`
only (R109). The client's state is not looked at: a command is taken in `Idle` and `Failed` as in `Connected`, where R103's
diagram shows it from `Connected` only. DESIGN CHOICE, log 32. -/
def commandResponse (board : Byte) (cmd : Command) (param1 : Half) (param2 : List Byte) (maxTries : Nat)
    (expBoard : Byte) (e : Env) : Env × Except EnvError Byte :=
  match ask (encodeRequest e.block.cfg board cmd param1 param2) { e with client := .awaitingReply } with
  | (e1, some (.frame f)) => settleClient (attemptLoop f expBoard cmd maxTries e1)
  | (e1, r) => settleClient (e1, .error (.encodeFailed r))

/-- The tries of `wait_for_connection` (R104): each encodes a `Ping`, with parameters the spec leaves free (R94, D22),
sends it and filters what arrives. Any match ends the wait, whatever its status (N14; log 21). A try whose `send` fails is
spent like one in which nothing matches, since the function "does not raise" (R104; log 19). -/
def pingLoop (board : Byte) (params : Nat → Half × Bytes4) : Nat → Env → Env × Bool
  | 0, e => (e, false)
  | n + 1, e =>
    match ask (encodeRequest e.block.cfg board .ping (params n).1 (bytesOf (params n).2)) e with
    | (e1, some (.frame f)) =>
      match sendFrame f e1 with
      | (e2, a) =>
        if a.sendOk then
          match awaitMatch board .ping a.received e2 with
          | (e3, some _) => (e3, true)
          | (e3, none) => pingLoop board params n e3
        else pingLoop board params n e2
    | (e1, _) => pingLoop board params n e1

/-- `wait_for_connection` (R104): true on the first match, false when `maxTries` are exhausted; it never raises. It enters
`Connecting` from every client state, where R103's diagram shows it from `Idle` only. DESIGN CHOICE, log 32. -/
def waitForConnection (board : Byte) (params : Nat → Half × Bytes4) (maxTries : Nat) (e : Env) : Env × Bool :=
  match pingLoop board params maxTries { e with client := .connecting } with
  | (e1, true) => ({ e1 with client := .connected }, true)
  | (e1, false) => ({ e1 with client := .failed }, false)

/-- `set_address` (R108, R109): the range is checked before anything is encoded; the response is awaited from the NEW
address, since the device adopts it before acknowledging. `param2` is free (R95, D22). -/
def setAddress (board : Byte) (newAddress : Nat) (param2 : Bytes4) (maxTries : Nat) (e : Env) :
    Env × Except EnvError Byte :=
  if newAddress ≤ e.block.cfg.addrMax.toNat then
    commandResponse board .setId (BitVec.ofNat 16 newAddress) (bytesOf param2) maxTries (BitVec.ofNat 8 newAddress) e
  else (e, .error .invalidAddress)

/-- The addresses that the responses of one window add to those seen (R111): distinct, in the order first seen. -/
def collectBoards : List Frame → List Byte → Env → Env × List Byte
  | [], seen, e => (e, seen)
  | rx :: rest, seen, e =>
    match ask (rdecRequest rx) e with
    | (e', some (.response (some fields))) =>
      if fields.code = e'.block.cfg.codePing ∧ fields.board ∉ seen then collectBoards rest (seen ++ [fields.board]) e'
      else collectBoards rest seen e'
    | (e', _) => collectBoards rest seen e'

/-- The tries of `discover` (R111): every try is sent, whatever was seen before. -/
def discoverLoop (params : Nat → Half × Bytes4) : Nat → List Byte → Env → Env × Except EnvError (List Byte)
  | 0, seen, e => (e, .ok seen)
  | n + 1, seen, e =>
    match ask (encodeRequest e.block.cfg e.block.cfg.addrBroadcast .ping (params n).1 (bytesOf (params n).2)) e with
    | (e1, some (.frame f)) =>
      match sendFrame f e1 with
      | (e2, a) =>
        if a.sendOk then
          match collectBoards a.received seen e2 with
          | (e3, seen') => discoverLoop params n seen' e3
        else (e2, .error .transportError)
    | (e1, r) => (e1, .error (.encodeFailed r))

/-- `discover` (R111): the set of all addresses seen in all tries. -/
def discover (params : Nat → Half × Bytes4) (maxTries : Nat) (e : Env) : Env × Except EnvError (List Byte) :=
  discoverLoop params maxTries [] e

end Sys2Proof.Environment
end

