-- ==== Sys2Proof/Machine/Image.lean ====
section
/-! DEFINITION. The environment's firmware image (spec/45_host_sequences.md R112, R113; spec/20_memory.md R31): padding,
pages, the word stream. None of it is state of the block (spec/10_state.md R20). -/

namespace Sys2Proof.Environment

open Machine

/-- `page_count = ceil(L / PAGE_BYTES)` (R112). -/
def pageCount (c : Config) (len : Nat) : Nat := (len + c.pageBytes - 1) / c.pageBytes

/-- The padded length (R112). -/
def paddedLength (c : Config) (len : Nat) : Nat := pageCount c len * c.pageBytes

/-- The image, padded with zero bytes up to the next multiple of the page size (R112). -/
def padImage (c : Config) (image : List Byte) : List Byte :=
  image ++ List.replicate (paddedLength c image.length - image.length) 0#8

/-- `W(p, j)` (R113): the 4 bytes at `a = PAGE_BYTES * p + WORD_BYTES * j`, in reverse byte order. -/
def imageWord (c : Config) (padded : List Byte) (p j : Nat) : Bytes4 :=
  let a := c.pageBytes * p + c.wordBytes * j
  ⟨padded.getD (a + 3) 0#8, padded.getD (a + 2) 0#8, padded.getD (a + 1) 0#8, padded.getD a 0#8⟩

/-- `S_p` (R113): the word stream of page `p`. -/
def pageWords (c : Config) (padded : List Byte) (p : Nat) : List Bytes4 :=
  (List.range c.wordsPerPage).map (imageWord c padded p)

/-- The word streams of all pages, in page order (R68, R144). -/
def imageWords (c : Config) (image : List Byte) : List Bytes4 :=
  (List.range (pageCount c image.length)).flatMap (pageWords c (padImage c image))

end Sys2Proof.Environment
end

