-- ==== Sys2Proof/Machine/Flash.lean ====
section
/-! DEFINITION. The environment's Flash Orchestrator (spec/45_host_sequences.md R114 to R119, R123) and the
pseudo-operations (spec/30_encoding.md R57) it is built of. -/

namespace Sys2Proof.Environment

open Machine

/-- `crc.page_begin` (R57). -/
def pageBegin : List Request := [{ op := 0#3, k := .page }]

/-- `crc.transfer_begin` (R57). -/
def transferBegin : List Request := [{ op := 0#3, k := .image }]

/-- `crc.feed b0 b1 b2 b3` (R57): the word goes to both accumulators. -/
def feed (w : Bytes4) : List Request :=
  [{ op := 1#3, k := .page, w := bytesOf w }, { op := 1#3, k := .image, w := bytesOf w }]

/-- `crc.feed_image i0 i1 i2 i3` (R57): the image's 4 bytes, reversed by the requester. -/
def feedImage (i : Bytes4) : List Request := feed (rev4 i)

/-- Presents requests one after the other, for their effect on the accumulators. -/
def askAll : List Request → Env → Env
  | [], e => e
  | r :: rest, e => askAll rest (ask r e).1

/-- `CRC.DIGEST k`, as the 4 bytes the next command carries, unreordered (R67, R149). -/
def askDigest (k : Acc) (e : Env) : Env × List Byte :=
  match ask { op := 2#3, k := k } e with
  | (e', some (.digest d)) => (e', bytesOf d)
  | (e', _) => (e', [])

/-- The `WriteBuffer` commands of one attempt (R116): one per word, `param1` the word's index, `param2` the same word
that was fed to the accumulators (R150, D7; log 20). The first failure ends the attempt. -/
def sendWords (board : Byte) (maxTries : Nat) : List (Nat × Bytes4) → Env → Env × Except EnvError Unit
  | [], e => (e, .ok ())
  | (j, w) :: rest, e =>
    match commandResponse board .writeBuffer (BitVec.ofNat 16 j) (bytesOf w) maxTries board e with
    | (e', .ok _) => sendWords board maxTries rest e'
    | (e', .error r) => (e', .error r)

/-- One attempt at page `p` (R116): all words, then `WritePage` with the page digest. -/
def pageAttempt (board : Byte) (maxTries p : Nat) (words : List Bytes4) (digest : List Byte) (e : Env) :
    Env × Except EnvError Unit :=
  match sendWords board maxTries ((List.range words.length).zip words) e with
  | (e1, .error r) => (e1, .error r)
  | (e1, .ok ()) =>
    match commandResponse board .writePage (BitVec.ofNat 16 p) digest maxTries board e1 with
    | (e2, .ok _) => (e2, .ok ())
    | (e2, .error r) => (e2, .error r)

/-- Up to `page_retries` attempts, each of the entire page (R116); true when one completes. -/
def pageAttempts (board : Byte) (maxTries p : Nat) (words : List Bytes4) (digest : List Byte) :
    Nat → Env → Env × Bool
  | 0, e => (e, false)
  | n + 1, e =>
    match pageAttempt board maxTries p words digest e with
    | (e1, .ok ()) => (e1, true)
    | (e1, .error _) => pageAttempts board maxTries p words digest n e1

/-- The pages in order (R115 to R117): initialise the page accumulator, feed every word to both accumulators once, take
the page digest once, then the attempts. -/
def flashPages (board : Byte) (maxTries pageRetries : Nat) (padded : List Byte) :
    List Nat → Env → Env × Except EnvError Unit
  | [], e => (e, .ok ())
  | p :: rest, e =>
    let words := pageWords e.block.cfg padded p
    let e1 := askAll (pageBegin ++ words.flatMap feed) e
    match askDigest .page e1 with
    | (e2, digest) =>
      match pageAttempts board maxTries p words digest pageRetries e2 with
      | (e3, true) => flashPages board maxTries pageRetries padded rest e3
      | (e3, false) => (e3, .error (.pageWriteFailed p))

/-- What a failure of the final `WriteCrc` is to the caller of `flash` (R118, R132): `NoReply` and `DeviceRejected` are
`VerificationFailed`; every other error propagates as it is (R133), a failed `send` among them (conflict C8; log 19). -/
def writeCrcError (r : EnvError) : EnvError :=
  match r with
  | .noReply => .verificationFailed
  | .deviceRejected _ => .verificationFailed
  | .transportError => r
  | .connectionFailed => r
  | .pageWriteFailed _ => r
  | .verificationFailed => r
  | .invalidAddress => r
  | .imageTooLarge => r
  | .encodeFailed _ => r

/-- `flash` (R114 to R119, R123). A wait that ends in false aborts with `ConnectionFailed` (R114). Of the final `WriteCrc`,
`NoReply` and `DeviceRejected` are `VerificationFailed`, and a failed `send` is `TransportError` (R132, C8; log 19).
An image whose page count does not fit `param1` is refused (D26).
The counts that `flash` passes down are not given (R114, N16): the handshake has `connectTries`, and all commands share
`maxTries`. DESIGN CHOICE, log 30. `CRC.INIT 1` follows the handshake, an order R114 and R143 leave open. DESIGN CHOICE,
log 31. -/
def flash (board : Byte) (image : List Byte) (pageRetries connectTries maxTries : Nat) (params : Nat → Half × Bytes4)
    (e : Env) : Env × Except EnvError Unit :=
  let pages := pageCount e.block.cfg image.length
  if 65535 < pages then (e, .error .imageTooLarge)
  else
    match waitForConnection board params connectTries e with
    | (e1, false) => (e1, .error .connectionFailed)
    | (e1, true) =>
      match flashPages board maxTries pageRetries (padImage e1.block.cfg image) (List.range pages)
          (askAll transferBegin e1) with
      | (e2, .error r) => (e2, .error r)
      | (e2, .ok ()) =>
        match askDigest .image e2 with
        | (e3, digest) =>
          match commandResponse board .writeCrc (BitVec.ofNat 16 pages) digest maxTries board e3 with
          | (e4, .ok _) => (e4, .ok ())
          | (e4, .error r) => (e4, .error (writeCrcError r))

end Sys2Proof.Environment
end

