-- ==== Sys2Proof/Safety.lean ====
section
/-! DEFINITION. What a safe run is, in the terms the statements use: the configuration meets R8 (spec/00_scope.md), every
input can be presented, and the result record is one the operations can return (spec/30_encoding.md R51). -/

namespace Sys2Proof.Machine

/-- What a result record of the block can be (R51): a frame is a command frame on `CMD_ID` with an assigned code and 8
bytes (R75); a decoded command's `known` bit says whether its code is assigned (R81); an error carries the information of
a real defect (R126 to R128). -/
def Result.Legal (c : Config) : Result → Prop
  | .done => True
  | .digest _ => True
  | .frame f => f.id = c.cmdId ∧ ∃ board code lo hi d4 d5 d6 d7,
      f.data = [board, code, lo, hi, d4, d5, d6, d7] ∧ code ∈ c.commandCodes
  | .matched _ => True
  | .response _ => True
  | .command none => True
  | .command (some fields) => fields.known = true ↔ fields.code ∈ c.commandCodes
  | .error (.badParam2Length n) => n ≠ 4
  | .error (.badWordLength n) => n ≠ c.wordBytes
  | .error (.illegalCommand x) => x ∉ c.commandCodes
  | .error .illegalOp => True

/-- The invariant of the machine: R8 holds, what waits can be presented, and the result record is legal. -/
structure State.Inv (s : State) : Prop where
  consistent : s.cfg.Consistent
  presentable : ∀ x ∈ s.inputs, x.wf s.cfg = true
  resultLegal : ∀ r, s.result = some r → r.Legal s.cfg

/-- `n` steps in a row, ending at the first that does not go on (R12, R36). -/
def runSteps : Nat → State → Ran
  | 0, s => .next s
  | n + 1, s =>
    match step s with
    | .next t => runSteps n t
    | .fault r => .fault r
    | .refused r => .refused r

/-- A step that goes on. -/
def State.CanStep (s : State) : Prop := ∃ t, step s = .next t

/-- Everything but the result record is the same: what an operation that writes no state leaves (R83, R125). -/
structure State.SameButResult (s t : State) : Prop where
  crcPage : t.crcPage = s.crcPage
  crcImage : t.crcImage = s.crcImage
  cfg : t.cfg = s.cfg
  inputs : t.inputs = s.inputs

/-- Everything but accumulator `k` and the result record is the same: what `CRC.INIT k` and `CRC.UPDATE k` leave
(R13, R15). -/
structure State.SameButCrc (k : Acc) (s t : State) : Prop where
  other : t.getCrc (otherAcc k) = s.getCrc (otherAcc k)
  cfg : t.cfg = s.cfg
  inputs : t.inputs = s.inputs

/-- What one input does to the value of accumulator `k` (R15, R36): only `CRC.INIT k`, `CRC.UPDATE k` with a whole word,
and reset change it. -/
def crcAfterInput (c : Config) (k : Acc) (v : Word) : Input → Word
  | .reset => c.init
  | .busFrame _ _ => v
  | .request r =>
    if r.k = k ∧ r.op = 0#3 then c.init
    else if r.k = k ∧ r.op = 1#3 ∧ r.w.length = c.wordBytes then crcWord c v r.w
    else v

/-- The inputs that R36 says decide accumulator `k`: its own `CRC.INIT` and `CRC.UPDATE`, and reset (R140). -/
def concernsCrc (k : Acc) : Input → Bool
  | .reset => true
  | .busFrame _ _ => false
  | .request r => (r.k == k) && (r.op == 0#3 || r.op == 1#3)

end Sys2Proof.Machine
end

