-- ==== Sys2Proof/Certificates/Slice0/Obligations.lean ====
section
/-! DEFINITION. The statements about the machine, from the numbered rules of spec/. `Standard` says that the parameters of
R7 have the spec's values; the OPEN ones (identifiers) are anything. -/

namespace Sys2Proof.Reference

open Machine

/-! Forms of the CRC that the spec gives beside the bit-serial one (spec/40_crc.md R61), written without the model's
functions. -/

/-- The shift step of R61 (a). -/
def shiftStep (r : Word) : Word :=
  if r.getLsbD 31 then (r <<< 1) ^^^ 0x04C11DB7#32 else r <<< 1

/-- R61 (a): XOR the whole word in, then shift 32 times. -/
def shiftForm (r v : Word) : Word := shiftStep^[32] (r ^^^ v)

/-- R61 (b): the byte table, 8 shift steps from the byte in bits 31 to 24. -/
def table (i : Byte) : Word := shiftStep^[8] (i ++ 0#24)

/-- R61 (c): a value read as a polynomial over GF(2), bit `i` the coefficient of `x^i`. -/
noncomputable def bitPoly {n : Nat} (v : BitVec n) : Polynomial (ZMod 2) :=
  ∑ i ∈ Finset.range n, if v.getLsbD i then Polynomial.X ^ i else 0

/-- What an input says to accumulator `k`, without the name of the accumulator: `none` for an initialisation or reset, a
word for an update. -/
def crcEvent (k : Acc) : Input → Option (Option (List Byte))
  | .reset => some none
  | .busFrame _ _ => none
  | .request r =>
    if r.k = k ∧ r.op = 0#3 then some none
    else if r.k = k ∧ r.op = 1#3 then some (some r.w)
    else none

/-- The row of a command (R44). -/
def commandInstr (cmd : Command) (addr : Byte) (param1 : Half) (param2 : Bytes4) : Instr :=
  match cmd with
  | .writeBuffer => .writeBuffer addr param1 param2
  | .writePage => .writePage addr param1 param2
  | .writeCrc => .writeCrc addr param1 param2
  | .ping => .ping addr param1 param2
  | .setId => .setId addr param1 param2

end Sys2Proof.Reference

open Sys2Proof Sys2Proof.Machine Sys2Proof.Environment Sys2Proof.Reference

/-! ### Reset, the step, the invariant -/

/-- R24, R140 (the spec's decision D10): both accumulators hold 0xFFFFFFFF. The empty input list and the absent result are
the model's own fields (log 1, log 2). -/
def Obligations.ResetAccumulatorsHoldInit : Prop :=
  State.reset.getCrc .page = 0xFFFFFFFF#32 ∧ State.reset.getCrc .image = 0xFFFFFFFF#32 ∧
    State.reset.inputs = [] ∧ State.reset.result = none

/-- R7's values and R8's conditions hold at reset, and the invariant with them; the OPEN identifiers are uninterpreted
(log 4). -/
def Obligations.ResetMeetsInvariant : Prop :=
  State.reset.Inv ∧ State.reset.cfg.Standard

/-- The invariant (R8's conditions, presentable inputs, a legal result record) is kept by every step from every state. -/
def Obligations.StepKeepsInvariant : Prop :=
  ∀ s t : State, s.Inv → step s = .next t → t.Inv

/-- R125, R131: no operation stops the block; from a state of the invariant every step goes on. -/
def Obligations.InvariantStateAlwaysSteps : Prop :=
  ∀ s : State, s.Inv → s.CanStep

/-- A step runs the decoded instruction: when the oldest input decodes to a well-formed instruction, the step is `exec` of
it on the state without that input. -/
def Obligations.StepRunsDecodedInstruction : Prop :=
  ∀ (s : State) (x : Input) (rest : List Input) (i : Instr),
    s.inputs = x :: rest → decode s.cfg x = .ok i → i.wf s.cfg = true →
      step s = exec i { s with inputs := rest }

/-- R36, R18: a step that goes on takes the oldest input, if there is one, and never writes the configuration. The input
list and the configuration are fields of the model's own (log 1, log 3), and that a reset leaves the later inputs is its
choice (log 17). -/
def Obligations.StepTakesOneInputAndKeepsConfiguration : Prop :=
  ∀ s t : State, step s = .next t → t.inputs = s.inputs.tail ∧ t.cfg = s.cfg

/-- R54, D15 (log 7): an input whose frame is longer than `RX_MAX_BYTES` is refused by name, and nothing else is refused. -/
def Obligations.OnlyOverlongFramesAreRefused : Prop :=
  ∀ (s : State) (r : Refusal), step s = .refused r ↔
    ∃ x rest, s.inputs = x :: rest ∧ ∃ n, s.cfg.rxMaxBytes < n ∧ r = .frameTooLong n ∧
      match x with
      | .reset => False
      | .request q => (q.op = 4#3 ∨ q.op = 5#3 ∨ q.op = 6#3) ∧ n = q.rx.data.length
      | .busFrame _ data => n = data.length

/-- R140 (the spec's decision D10): the reset event leaves both accumulators at `INIT`; what else is presented afterwards
is the requester's (log 17). -/
def Obligations.ResetEventLoadsInit : Prop :=
  ∀ (s : State) (rest : List Input), s.cfg.Standard → s.inputs = .reset :: rest →
    step s = .next { s with crcPage := 0xFFFFFFFF#32, crcImage := 0xFFFFFFFF#32, inputs := rest, result := none }

/-- R139, R141: with no request the block waits and loses no state (log 10). -/
def Obligations.IdleStepChangesNothing : Prop :=
  ∀ s : State, s.inputs = [] → step s = .next s

/-! ### The accumulators -/

/-- R62 (D4): `CRC.INIT k` writes 0xFFFFFFFF into `CRC[k]` and nothing else. -/
def Obligations.CrcInitLoadsInit : Prop :=
  ∀ (s : State) (k : Acc), s.cfg.Standard →
    ∃ t, exec (.crcInit k) s = .next t ∧ t.getCrc k = 0xFFFFFFFF#32 ∧ s.SameButCrc k t ∧ t.result = some .done

/-- R63 with R60 and R61 (a): on a word of 4 bytes `CRC.UPDATE k` completes, `CRC[k]` becomes the value that XORing the
word in (first byte most significant) and shifting 32 times gives, and nothing else changes. -/
def Obligations.CrcUpdateMatchesShiftForm : Prop :=
  ∀ (s : State) (k : Acc) (b0 b1 b2 b3 : Byte), s.cfg.Standard →
    ∃ t, exec (.crcUpdate k [b0, b1, b2, b3]) s = .next t ∧
      t.getCrc k = shiftForm (s.getCrc k) (b0 ++ b1 ++ b2 ++ b3) ∧ s.SameButCrc k t ∧ t.result = some .done

/-- R63, R127 (D8): a word of any other length is an error and the accumulators are unchanged. -/
def Obligations.CrcUpdateRejectsOtherLengths : Prop :=
  ∀ (s : State) (k : Acc) (w : List Byte), s.cfg.Standard → w.length ≠ 4 →
    exec (.crcUpdate k w) s = .next { s with result := some (.error (.badWordLength w.length)) }

/-- R66 (D6, D11): `CRC.DIGEST k` returns the register, most significant byte first, and changes nothing else. -/
def Obligations.CrcDigestReadsRegister : Prop :=
  ∀ (s : State) (k : Acc), s.cfg.Standard →
    exec (.crcDigest k) s = .next { s with result := some (.digest
      ⟨(s.getCrc k).extractLsb' 24 8, (s.getCrc k).extractLsb' 16 8, (s.getCrc k).extractLsb' 8 8,
        (s.getCrc k).extractLsb' 0 8⟩) }

/-- R61 (b): the byte-table form of the byte function. -/
def Obligations.CrcByteMatchesTable : Prop :=
  ∀ (c : Config) (r : Word) (x : Byte), c.Standard →
    crcByte c r x = (r <<< 8) ^^^ table (r.extractLsb' 24 8 ^^^ x)

/-- R61 (c): on polynomials over GF(2), `CRC.UPDATE` multiplies register plus word by x^32 modulo the generator with its
top bit. -/
def Obligations.CrcUpdateIsPolynomialRemainder : Prop :=
  ∀ (s t : State) (k : Acc) (w : Bytes4), s.cfg.Standard → exec (.crcUpdate k (bytesOf w)) s = .next t →
    bitPoly (t.getCrc k) =
      ((bitPoly (s.getCrc k) + bitPoly (w.b0 ++ w.b1 ++ w.b2 ++ w.b3)) * Polynomial.X ^ 32) %ₘ
        bitPoly 0x104C11DB7#33

/-- R69: the word function is linear, for every generator. -/
def Obligations.CrcWordIsLinear : Prop :=
  ∀ (c : Config) (a b : Word) (w : Bytes4), c.refin = false →
    crcWord c (a ^^^ b) [0, 0, 0, 0] = crcWord c a [0, 0, 0, 0] ^^^ crcWord c b [0, 0, 0, 0] ∧
    crcWord c a (bytesOf w) = crcWord c (a ^^^ (w.b0 ++ w.b1 ++ w.b2 ++ w.b3)) [0, 0, 0, 0]

/-- R70: for a fixed word the register's map is a bijection, and for a fixed register the word's. -/
def Obligations.CrcWordIsBijective : Prop :=
  ∀ c : Config, c.Standard →
    (∀ w : Bytes4, Function.Bijective fun r => crcWord c r (bytesOf w)) ∧
    (∀ r : Word, Function.Bijective fun w : Bytes4 => crcWord c r (bytesOf w))

/-- R70, R63 corner case (b): the zero word leaves only the register 0 unchanged. -/
def Obligations.ZeroWordFixesOnlyZero : Prop :=
  ∀ (c : Config) (r : Word), c.Standard → (crcWord c r [0, 0, 0, 0] = r ↔ r = 0)

/-- R71: an accumulator fed its own digest ends at 0. -/
def Obligations.OwnDigestClearsAccumulator : Prop :=
  ∀ (s t : State) (k : Acc) (d : Bytes4), s.cfg.Standard → exec (.crcDigest k) s = .next t →
    t.result = some (.digest d) → ∃ u, exec (.crcUpdate k (bytesOf d)) t = .next u ∧ u.getCrc k = 0

/-- R72: the published check value of the parameter set, the nine ASCII bytes "123456789" fed one at a time. -/
def Obligations.PublishedCheckValue : Prop :=
  ∀ c : Config, c.Standard →
    [0x31#8, 0x32#8, 0x33#8, 0x34#8, 0x35#8, 0x36#8, 0x37#8, 0x38#8, 0x39#8].foldl (crcByte c) 0xFFFFFFFF#32
      = 0x0376E6E7#32

/-- R36, R64, R15: after every input presented, `CRC[k]` is what its own initialisations, updates and resets made of it, in
order; every other operation may be interleaved anywhere without effect on it. That a reset loads `INIT` is the spec's
decision D10 (log 9); that the inputs behind it stay is the model's choice (log 17), as the input list is (log 1). -/
def Obligations.AccumulatorFollowsItsOwnOperations : Prop :=
  ∀ (s t : State) (k : Acc), runSteps s.inputs.length s = .next t →
    t.inputs = [] ∧
      t.getCrc k = (s.inputs.filter (concernsCrc k)).foldl (crcAfterInput s.cfg k) (s.getCrc k)

/-- R65: two accumulators, of one block or of two, that hold the same value and are told the same ordered stream of
initialisations and words give the same digest, whatever else is presented to either. A reset counts as an initialisation:
it loads `INIT` by the spec's decision D10 (log 9), and the inputs behind it stay by the model's choice (log 17). -/
def Obligations.EqualStreamsGiveEqualDigests : Prop :=
  ∀ (s s' t t' : State) (k k' : Acc), s.cfg = s'.cfg → s.getCrc k = s'.getCrc k' →
    s.inputs.filterMap (crcEvent k) = s'.inputs.filterMap (crcEvent k') →
    runSteps s.inputs.length s = .next t → runSteps s'.inputs.length s' = .next t' →
    ∃ u u' d, exec (.crcDigest k) t = .next u ∧ exec (.crcDigest k') t' = .next u' ∧
      u.result = some (.digest d) ∧ u'.result = some (.digest d)

/-- R15, R83: only `CRC.INIT k` and `CRC.UPDATE k` write `CRC[k]`; no instruction writes the configuration or the inputs. -/
def Obligations.OnlyCrcOperationsWriteAccumulators : Prop :=
  ∀ (i : Instr) (s t : State) (k : Acc), exec i s = .next t →
    t.cfg = s.cfg ∧ t.inputs = s.inputs ∧
      (t.getCrc k ≠ s.getCrc k → i = .crcInit k ∨ ∃ w, i = .crcUpdate k w)

/-! ### Errors -/

/-- R125 (D9), R130: an operation that reports an error changes nothing else, and the operations that raise no error are
those R130 lists. -/
def Obligations.ErrorsLeaveNoTrace : Prop :=
  ∀ (i : Instr) (s t : State) (e : OpError), exec i s = .next t → t.result = some (.error e) →
    s.SameButResult t ∧
      match i with
      | .crcUpdate _ w => e = .badWordLength w.length
      | .frameEncode _ cmd _ param2 => e = .illegalCommand cmd ∨ e = .badParam2Length param2.length
      | .frameMatch _ _ expCmd => e = .illegalCommand expCmd
      | .reservedOp7 => e = .illegalOp
      | _ => False

/-- R125 (D9): errors are not sticky: what follows an operation that reported an error runs as if it had not been. -/
def Obligations.ErrorsAreNotSticky : Prop :=
  ∀ (i j : Instr) (s t : State) (e : OpError), exec i s = .next t → t.result = some (.error e) →
    exec j t = exec j s

/-- R54, R129 (D27): `op = 7` reports `IllegalOp`, with no state change. -/
def Obligations.ReservedOpReportsIllegalOp : Prop :=
  ∀ s : State, exec .reservedOp7 s = .next { s with result := some (.error .illegalOp) }

/-- R126: with an assigned code and a `param2` of `n` bytes, `n` not 4, the encoder fails with `BadParam2Length(n)`; no
frame is produced. -/
def Obligations.EncodeRejectsBadParam2Length : Prop :=
  ∀ (s : State) (board cmd : Byte) (param1 : Half) (param2 : List Byte),
    cmd ∈ s.cfg.commandCodes → param2.length ≠ 4 →
      exec (.frameEncode board cmd param1 param2) s =
        .next { s with result := some (.error (.badParam2Length param2.length)) }

/-- R128, R131 (D9, D12): a code that is not one of 1 to 5 is `IllegalCommand`, before the length is looked at, in the
encoder and in the filter. -/
def Obligations.UnassignedCodesAreRefused : Prop :=
  ∀ (s : State) (board cmd : Byte) (param1 : Half) (param2 : List Byte) (rx : Frame), s.cfg.Standard →
    cmd = 0#8 ∨ 6#8 ≤ cmd →
      exec (.frameEncode board cmd param1 param2) s = .next { s with result := some (.error (.illegalCommand cmd)) } ∧
      exec (.frameMatch rx board cmd) s = .next { s with result := some (.error (.illegalCommand cmd)) }

/-! ### The codec -/

/-- R26, R27, R40, R45: the payload layout, both ways. The encoder completes and places address, code, `param1`
little-endian and `param2` reversed, in 8 bytes; the decoder recovers both parameters from the payload. The frame's
identifier is the spec's decision D13, and the decoder, with `known`, its decision D16. -/
def Obligations.WireLayoutBothWays : Prop :=
  ∀ (s : State) (board cmd : Byte) (param1 : Half) (p0 p1 p2 p3 : Byte), s.cfg.Standard →
    1#8 ≤ cmd → cmd ≤ 5#8 →
    let data := [board, cmd, param1.extractLsb' 0 8, param1.extractLsb' 8 8, p3, p2, p1, p0]
    exec (.frameEncode board cmd param1 [p0, p1, p2, p3]) s =
        .next { s with result := some (.frame ⟨s.cfg.cmdId, data⟩) } ∧
      exec (.frameCdec ⟨s.cfg.cmdId, data⟩) s =
        .next { s with result := some (.command (some ⟨true, board, cmd, param1, ⟨p0, p1, p2, p3⟩⟩)) }

/-- R77: the encoder is injective on its legal operands, and every 8-byte payload whose byte 1 is a command code is the
encoding of exactly one operand tuple. -/
def Obligations.EncodeIsBijectiveOnLegalOperands : Prop :=
  ∀ (s : State) (b0 b1 b2 b3 b4 b5 b6 b7 : Byte), b1 ∈ s.cfg.commandCodes →
    ∃! q : Byte × Byte × Half × Bytes4,
      exec (.frameEncode q.1 q.2.1 q.2.2.1 (bytesOf q.2.2.2)) s =
        .next { s with result := some (.frame ⟨s.cfg.cmdId, [b0, b1, b2, b3, b4, b5, b6, b7]⟩) }

/-- R78, R79 (D14): for an assigned `exp_cmd` the filter completes; it matches, with byte 2 as the status, exactly when the
identifier is recognised, the length is at least 3, byte 0 is the expected board and byte 1 the expected code. -/
def Obligations.MatchIsTheFourConditions : Prop :=
  ∀ (s : State) (rx : Frame) (expBoard expCmd : Byte), s.cfg.Standard → 1#8 ≤ expCmd → expCmd ≤ 5#8 →
    ∃ status : Option Byte,
      exec (.frameMatch rx expBoard expCmd) s = .next { s with result := some (.matched status) } ∧
      ∀ x, status = some x ↔
        (s.cfg.respIdBase ≤ rx.id ∧ rx.id < s.cfg.respIdBase + s.cfg.respIdCount) ∧ 3 ≤ rx.data.length ∧
          rx.data[0]? = some expBoard ∧ rx.data[1]? = some expCmd ∧ rx.data[2]? = some x

/-- R80 (D16): `FRAME.RDEC` completes on every frame; it is valid exactly on a recognised identifier with at least 3 bytes,
and the fields are bytes 0, 1 and 2. -/
def Obligations.RdecReadsFirstThreeBytes : Prop :=
  ∀ (s : State) (rx : Frame), s.cfg.Standard →
    ∃ fields : Option ResponseFields,
      exec (.frameRdec rx) s = .next { s with result := some (.response fields) } ∧
      ∀ f, fields = some f ↔
        (s.cfg.respIdBase ≤ rx.id ∧ rx.id < s.cfg.respIdBase + s.cfg.respIdCount) ∧
          ∃ tail, rx.data = f.board :: f.code :: f.status :: tail

/-- R81 (D16): `FRAME.CDEC` completes on every frame; it is valid exactly on `CMD_ID` with 8 bytes, `known` says whether
byte 1 is one of 1 to 5, and the parameters are read as the layout says. -/
def Obligations.CdecReadsEightBytes : Prop :=
  ∀ (s : State) (rx : Frame), s.cfg.Standard →
    ∃ fields : Option CommandFields,
      exec (.frameCdec rx) s = .next { s with result := some (.command fields) } ∧
      ∀ f, fields = some f ↔
        rx.id = s.cfg.cmdId ∧
          rx.data = [f.board, f.code, f.param1.extractLsb' 0 8, f.param1.extractLsb' 8 8,
            f.param2.b3, f.param2.b2, f.param2.b1, f.param2.b0] ∧
          (f.known = true ↔ 1#8 ≤ f.code ∧ f.code ≤ 5#8)

/-- R80: the filter and the response decoder agree, for every configuration. -/
def Obligations.MatchAgreesWithRdec : Prop :=
  ∀ (s t u : State) (rx : Frame) (b c st : Byte), c ∈ s.cfg.commandCodes →
    exec (.frameMatch rx b c) s = .next t → exec (.frameRdec rx) s = .next u →
      (t.result = some (.matched (some st)) ↔ u.result = some (.response (some ⟨b, c, st⟩)))

/-- R82 (a), (b): decoding what the encoder made gives the operands back, and encoding what the decoder read of a frame
with an assigned code gives the frame back. -/
def Obligations.CodecRoundTrips : Prop :=
  ∀ s : State, s.cfg.Standard →
    (∀ (t u : State) (board cmd : Byte) (param1 : Half) (param2 : Bytes4) (f : Frame),
      exec (.frameEncode board cmd param1 (bytesOf param2)) s = .next t → t.result = some (.frame f) →
      exec (.frameCdec f) t = .next u →
        u.result = some (.command (some ⟨true, board, cmd, param1, param2⟩))) ∧
    (∀ (t u : State) (rx : Frame) (f : CommandFields),
      exec (.frameCdec rx) s = .next t → t.result = some (.command (some f)) → f.known = true →
      exec (.frameEncode f.board f.code f.param1 (bytesOf f.param2)) t = .next u →
        u.result = some (.frame rx))

/-- R82 (c), R79 (c): the requester's own command frame, seen again, is no response. -/
def Obligations.OwnCommandFrameIsNoResponse : Prop :=
  ∀ (s t : State) (board cmd b c : Byte) (param1 : Half) (param2 : List Byte) (f : Frame), s.cfg.Consistent →
    c ∈ s.cfg.commandCodes → exec (.frameEncode board cmd param1 param2) s = .next t → t.result = some (.frame f) →
      exec (.frameMatch f b c) t = .next { t with result := some (.matched none) } ∧
      exec (.frameRdec f) t = .next { t with result := some (.response none) }

/-- R83: the four frame operations neither read nor write any state: each completes, changes only the result record, and
the result is a function of the operands and the configuration alone. -/
def Obligations.CodecIsPure : Prop :=
  ∀ (i : Instr),
    (∃ b c p q, i = .frameEncode b c p q) ∨ (∃ f b c, i = .frameMatch f b c) ∨ (∃ f, i = .frameRdec f) ∨
      (∃ f, i = .frameCdec f) →
    ∀ c : Config, ∃ r : Result, ∀ s : State, s.cfg = c → exec i s = .next { s with result := some r }

/-- R49: the codec returns the status byte unchanged, whatever it is, and does not interpret it: a match with a nonzero
status is a match. A frame that fails one of the filter's conditions gives no status at all (R78; log 24). The recognised
range is the spec's decision D14, and `FRAME.RDEC` its decision D16. -/
def Obligations.StatusIsPassedThrough : Prop :=
  ∀ s : State, s.cfg.Standard →
    (∀ (board code status : Byte) (tail : List Byte) (n : Nat), n < s.cfg.respIdCount → 1#8 ≤ code → code ≤ 5#8 →
      let rx : Frame := ⟨s.cfg.respIdBase + n, board :: code :: status :: tail⟩
      exec (.frameMatch rx board code) s = .next { s with result := some (.matched (some status)) } ∧
        exec (.frameRdec rx) s = .next { s with result := some (.response (some ⟨board, code, status⟩)) }) ∧
    ∀ (rx : Frame) (expBoard expCmd : Byte), 1#8 ≤ expCmd → expCmd ≤ 5#8 →
      (rx.id < s.cfg.respIdBase ∨ s.cfg.respIdBase + s.cfg.respIdCount ≤ rx.id) ∨ rx.data.length < 3 ∨
        rx.data[0]? ≠ some expBoard ∨ rx.data[1]? ≠ some expCmd →
      exec (.frameMatch rx expBoard expCmd) s = .next { s with result := some (.matched none) }

/-! ### The frame rows -/

/-- R91 to R95, R81: a command frame at the block's decoders gives its operands back, `known`, with its code (that a frame
row stands for its decoding is the model's choice, log 5). -/
def Obligations.CommandFramesDecodeToTheirOperands : Prop :=
  ∀ (s : State) (a : Byte) (p : Half) (q : Bytes4), s.cfg.Standard →
    exec (.writeBuffer a p q) s = .next { s with result := some (.command (some ⟨true, a, 1#8, p, q⟩)) } ∧
    exec (.writePage a p q) s = .next { s with result := some (.command (some ⟨true, a, 2#8, p, q⟩)) } ∧
    exec (.writeCrc a p q) s = .next { s with result := some (.command (some ⟨true, a, 3#8, p, q⟩)) } ∧
    exec (.ping a p q) s = .next { s with result := some (.command (some ⟨true, a, 4#8, p, q⟩)) } ∧
    exec (.setId a p q) s = .next { s with result := some (.command (some ⟨true, a, 5#8, p, q⟩)) }

/-- R96, R48, R50, R80: a response frame at the block's decoders gives its three fields, whatever bytes follow; on an
identifier outside the recognised range it is not valid (log 5). -/
def Obligations.ResponseFrameDecodesToItsFields : Prop :=
  ∀ (s : State) (n : Nat) (a c st : Byte) (tail : List Byte), s.cfg.Standard →
    exec (.response n a c st tail) s = .next { s with
      result := some (.response (if n < s.cfg.respIdCount then some ⟨a, c, st⟩ else none)) }

/-- R90: a command frame is what `FRAME.ENCODE` produces for its code, for every configuration: the row's payload is the
payload of the encoder's frame. -/
def Obligations.CommandFrameIsWhatEncodeProduces : Prop :=
  ∀ (s : State) (cmd : Command) (a : Byte) (p : Half) (q : Bytes4),
    ∃ f : Frame, exec (.frameEncode a (cmd.code s.cfg) p (bytesOf q)) s = .next { s with result := some (.frame f) } ∧
      f.id = s.cfg.cmdId ∧ encode s.cfg (commandInstr cmd a p q) = .busFrame .command f.data

/-- R54, R80, R81 (D16; log 5, log 6): every frame of at most 8 bytes off the bus is decoded. 8 bytes on the command
identifier are decoded whatever their code, with `known = 0` for an unassigned one; fewer are not valid. On a response
identifier, 3 bytes and more give their fields if the identifier is recognised, and fewer are not valid. None of these is an
error, and none changes state. -/
def Obligations.EveryBusFrameIsDecoded : Prop :=
  ∀ (s : State) (rest : List Input) (data : List Byte), s.cfg.Standard →
    (∀ a c l h d4 d5 d6 d7, data = [a, c, l, h, d4, d5, d6, d7] →
      s.inputs = .busFrame .command data :: rest →
        step s = .next { s with inputs := rest, result := some (.command (some
          ⟨decide (1#8 ≤ c ∧ c ≤ 5#8), a, c, h ++ l, ⟨d7, d6, d5, d4⟩⟩)) }) ∧
    (data.length < 8 → s.inputs = .busFrame .command data :: rest →
      step s = .next { s with inputs := rest, result := some (.command none) }) ∧
    (∀ n, data.length < 3 → s.inputs = .busFrame (.response n) data :: rest →
      step s = .next { s with inputs := rest, result := some (.response none) }) ∧
    (∀ n a c st tail, data = a :: c :: st :: tail → data.length ≤ 8 → s.inputs = .busFrame (.response n) data :: rest →
      step s = .next { s with inputs := rest, result := some (.response
        (if n < s.cfg.respIdCount then some ⟨a, c, st⟩ else none)) })

/-! ### Decoding -/

/-- Decoding what the encoder made of a well-formed instruction gives it back, for every configuration that meets R8. -/
def Obligations.DecodeEncodeRoundTrip : Prop :=
  ∀ (c : Config) (i : Instr), c.Consistent → i.wf c = true → decode c (encode c i) = .ok i

/-- The other way, for frames: a frame that decodes is the encoding of what it decodes to, so each payload has one
meaning. -/
def Obligations.EncodeDecodeFrames : Prop :=
  ∀ (c : Config) (ch : Channel) (data : List Byte) (i : Instr),
    decode c (.busFrame ch data) = .ok i → encode c i = .busFrame ch data

/-- R44, R53: the command map over the 64-bit payload value. A value decodes exactly when its byte P[55:48] is one of 1 to
5, and the address and parameters are the bits R42 names. -/
def Obligations.CommandMapOverPayloadValue : Prop :=
  ∀ P : BitVec 64,
    ((decodeTableWord 64 P.toNat).isSome = true ↔
      1#8 ≤ P.extractLsb' 48 8 ∧ P.extractLsb' 48 8 ≤ 5#8) ∧
    ∀ cmd : Command, P.extractLsb' 48 8 = cmd.code Config.deployment →
      decodeTableWord 64 P.toNat = some (commandInstr cmd (P.extractLsb' 56 8)
        (P.extractLsb' 32 8 ++ P.extractLsb' 40 8)
        ⟨P.extractLsb' 0 8, P.extractLsb' 8 8, P.extractLsb' 16 8, P.extractLsb' 24 8⟩)

/-- R52, R47: words written out from the spec's encodings decode to the instructions they stand for. The operands a word
has no bits for (the page accumulator, an empty frame of identifier 0, the first response channel) are the model's choice
(log 11). -/
def Obligations.SpecWordsDecode : Prop :=
  decodeTableWord 8 0 = some (.crcInit .page) ∧
  decodeTableWord 8 5 = some (.frameRdec ⟨0, []⟩) ∧
  decodeTableWord 8 7 = some .reservedOp7 ∧
  decodeTableWord 64 0x12010201D4C3B2A1 = some (.writeBuffer 0x12#8 0x0102#16 ⟨0xA1#8, 0xB2#8, 0xC3#8, 0xD4#8⟩) ∧
  decodeTableWord 64 0x00052A0000000000 = some (.setId 0#8 0x002A#16 ⟨0#8, 0#8, 0#8, 0#8⟩) ∧
  decodeTableWord 64 0x1206341204030201 = none ∧
  decodeTableWord 24 0x070400 = some (.response 0 0x07#8 0x04#8 0x00#8 [])

/-! ### The environment that drives the block -/

/-- R112, R113, R31: padding to a whole number of pages with zero bytes, `page_count = ceil(L / 1024)`; page `p` is the
padded bytes from `1024 p` on, as 256 words, word `j` being the 4 bytes at `1024 p + 4 j` in reverse order. -/
def Obligations.PaddingAndWordStream : Prop :=
  ∀ (c : Config) (image : List Byte), c.Standard →
    (padImage c image).length = pageCount c image.length * 1024 ∧
    image.length ≤ pageCount c image.length * 1024 ∧ pageCount c image.length * 1024 < image.length + 1024 ∧
    (∀ i, (padImage c image)[i]? =
      if i < image.length then image[i]? else if i < pageCount c image.length * 1024 then some 0#8 else none) ∧
    ∀ p < pageCount c image.length,
      (pageWords c (padImage c image) p).length = 256 ∧
      ∀ j < 256, ∃ w b0 b1 b2 b3, (pageWords c (padImage c image) p)[j]? = some w ∧ bytesOf w = [b3, b2, b1, b0] ∧
        (padImage c image)[1024 * p + 4 * j]? = some b0 ∧ (padImage c image)[1024 * p + 4 * j + 1]? = some b1 ∧
        (padImage c image)[1024 * p + 4 * j + 2]? = some b2 ∧ (padImage c image)[1024 * p + 4 * j + 3]? = some b3

/-- R32 (D7): the `WriteBuffer` frame of a word of the image carries the image's 4 bytes in image order. -/
def Obligations.WriteBufferCarriesImageOrder : Prop :=
  ∀ (s : State) (board : Byte) (index : Half) (padded : List Byte) (p j : Nat), s.cfg.Standard →
    1024 * p + 4 * j + 3 < padded.length →
    ∃ t f, exec (.frameEncode board 1#8 index (bytesOf (imageWord s.cfg padded p j))) s = .next t ∧
      t.result = some (.frame f) ∧ ∀ i < 4, f.data[4 + i]? = padded[1024 * p + 4 * j + i]?

/-- R108: an address outside 0 to 254 is `InvalidAddress` with nothing encoded or sent; for one inside, what is sent is the
`SetId` frame with `param1` the new address, at most `maxTries` times (R105), at least once unless `maxTries` is 0, and
nothing else. That a rejected address leaves the client's state is deduced (log 22), that an address is a natural number
before the check is the model's choice (log 26), and the frame's identifier is the spec's decision D13. That the frame is
sent from every client state is the model's choice (log 32). -/
def Obligations.SetAddressChecksTheRange : Prop :=
  ∀ (e : Env) (board : Byte) (newAddress maxTries : Nat) (param2 : Bytes4), e.block.cfg.Standard →
    (254 < newAddress → setAddress board newAddress param2 maxTries e = (e, .error .invalidAddress)) ∧
    (newAddress ≤ 254 → ∃ n, (0 < maxTries → 0 < n) ∧ n ≤ maxTries ∧
      (setAddress board newAddress param2 maxTries e).1.sent = e.sent ++ List.replicate n ⟨e.block.cfg.cmdId,
        [board, 5#8, BitVec.ofNat 8 newAddress, 0#8, param2.b3, param2.b2, param2.b1, param2.b0]⟩)

/-- R109: for a legal new address, every frame sent is addressed to the old address and carries the new one, and the first
frame of the first attempt that comes from the NEW address with code 5 ends the exchange. The script of the bus is the
model's (log 18), and so is that the command is sent from every client state (log 32). -/
def Obligations.SetAddressAwaitsTheNewAddress : Prop :=
  ∀ (e : Env) (board : Byte) (newAddress n : Nat) (param2 : Bytes4) (rest : List Attempt) (status : Byte)
    (frames : List Frame), e.block.cfg.Standard → newAddress ≤ 254 →
    (∀ f ∈ frames, f.data[0]? ≠ some (BitVec.ofNat 8 newAddress)) →
    e.world = ⟨true, frames ++ [⟨e.block.cfg.respIdBase, [BitVec.ofNat 8 newAddress, 5#8, status]⟩]⟩ :: rest →
    0 < e.block.cfg.respIdCount →
      (setAddress board newAddress param2 (n + 1) e).2 =
          (if status = 0#8 then .ok status else .error (.deviceRejected status)) ∧
      (setAddress board newAddress param2 (n + 1) e).1.sent = e.sent ++ [⟨e.block.cfg.cmdId,
          [board, 5#8, BitVec.ofNat 8 newAddress, 0#8, param2.b3, param2.b2, param2.b1, param2.b0]⟩]

/-- R105, R106: with a peer from which no matching frame arrives in `maxTries` attempts, `command_response` sends the same
frame exactly `maxTries` times and ends in `NoReply`. The script of the bus is the model's (log 18), and so is that the
command is sent from every client state (log 32). -/
def Obligations.SilentPeerYieldsNoReply : Prop :=
  ∀ (e : Env) (board expBoard : Byte) (cmd : Command) (param1 : Half) (param2 : Bytes4) (maxTries : Nat),
    (∀ a ∈ e.world.take maxTries, a.sendOk = true ∧
      ∀ f ∈ a.received, matchStatus e.block.cfg f expBoard (cmd.code e.block.cfg) = none) →
      (commandResponse board cmd param1 (bytesOf param2) maxTries expBoard e).2 = .error .noReply ∧
      (commandResponse board cmd param1 (bytesOf param2) maxTries expBoard e).1.sent =
        e.sent ++ List.replicate maxTries (commandFrame e.block.cfg board (cmd.code e.block.cfg) param1 param2)

/-- R105: a reply with nonzero status fails at once with `DeviceRejected` of that status, with no further attempt. The
script of the bus is the model's (log 18), and so is that the command is sent from every client state (log 32). -/
def Obligations.RejectionIsNotRetried : Prop :=
  ∀ (e : Env) (board expBoard status : Byte) (cmd : Command) (param1 : Half) (param2 : Bytes4) (n : Nat)
    (before after : List Frame) (reply : Frame) (rest : List Attempt),
    e.world = ⟨true, before ++ reply :: after⟩ :: rest → reply.data.length ≤ e.block.cfg.rxMaxBytes →
    (∀ f ∈ before, matchStatus e.block.cfg f expBoard (cmd.code e.block.cfg) = none) →
    matchStatus e.block.cfg reply expBoard (cmd.code e.block.cfg) = some status → status ≠ e.block.cfg.statusOk →
      (commandResponse board cmd param1 (bytesOf param2) (n + 1) expBoard e).2 = .error (.deviceRejected status) ∧
      (commandResponse board cmd param1 (bytesOf param2) (n + 1) expBoard e).1.sent =
        e.sent ++ [commandFrame e.block.cfg board (cmd.code e.block.cfg) param1 param2]

/-- R146, R107: no traffic of `command_response`, retries and discarded frames included, touches an accumulator. -/
def Obligations.CommandTrafficLeavesAccumulators : Prop :=
  ∀ (e : Env) (board expBoard : Byte) (cmd : Command) (param1 : Half) (param2 : List Byte) (maxTries : Nat),
    e.block.SameButResult (commandResponse board cmd param1 param2 maxTries expBoard e).1.block

/-- R114, R104: a peer that never answers `Ping`: `flash` ends in `ConnectionFailed` having sent `Ping` frames only, one for
each try, also where a `send` fails (log 19). The accumulators are untouched because this model performs `CRC.INIT 1` after
the handshake, an order that R114 and R143 leave open (log 31); the counts are log 30's, and that the handshake is entered
from every client state is log 32's. -/
def Obligations.NoConnectionMeansNoPageTraffic : Prop :=
  ∀ (e : Env) (board : Byte) (image : List Byte) (pageRetries connectTries maxTries : Nat)
    (params : Nat → Half × Bytes4), e.block.cfg.Standard → image.length ≤ 65535 * 1024 →
    (∀ a ∈ e.world.take connectTries, a.sendOk = true →
      ∀ f ∈ a.received, matchStatus e.block.cfg f board 4#8 = none) →
      (flash board image pageRetries connectTries maxTries params e).2 = .error .connectionFailed ∧
      e.block.SameButResult (flash board image pageRetries connectTries maxTries params e).1.block ∧
      ∃ pings : List Frame, (flash board image pageRetries connectTries maxTries params e).1.sent = e.sent ++ pings ∧
        pings.length = connectTries ∧ ∀ f ∈ pings, f.data[0]? = some board ∧ f.data[1]? = some 4#8

/-- R115, R118, R146, R68: whatever the bus does and however often pages are sent again, a flash that succeeds has fed
every word of the padded image to the image accumulator exactly once, in page order and word order, from `INIT`; and the
last frame sent is `WriteCrc` with the page count and that accumulator's digest, byte-reversed by the encoder only. It holds
for every configuration whose words have 4 bytes, and from every client state (log 32). -/
def Obligations.SuccessfulFlashCoversTheImageOnce : Prop :=
  ∀ (e : Env) (board : Byte) (image : List Byte) (pageRetries connectTries maxTries : Nat)
    (params : Nat → Half × Bytes4), e.block.cfg.wordBytes = 4 →
    (flash board image pageRetries connectTries maxTries params e).2 = .ok () →
    let v := crcStream e.block.cfg e.block.cfg.init ((imageWords e.block.cfg image).map bytesOf)
    let n := BitVec.ofNat 16 (pageCount e.block.cfg image.length)
    let d := digestBytes e.block.cfg v
    (flash board image pageRetries connectTries maxTries params e).1.block.getCrc .image = v ∧
      (flash board image pageRetries connectTries maxTries params e).1.sent.getLast? = some ⟨e.block.cfg.cmdId,
        [board, e.block.cfg.codeWriteCrc, n.extractLsb' 0 8, n.extractLsb' 8 8, d.b3, d.b2, d.b1, d.b0]⟩
end

