-- ==== Sys2Proof/Laws/Operands.lean ====
section
/-! SUPPORT. The byte orders are inverse to each other (spec/00_scope.md R9), and what the length check accepts. -/

namespace Sys2Proof.Machine

@[simp] theorem rev4_rev4 (b : Bytes4) : rev4 (rev4 b) = b := rfl
@[simp] theorem length_bytesOf (b : Bytes4) : (bytesOf b).length = 4 := rfl
@[simp] theorem bytes4?_bytesOf (b : Bytes4) : bytes4? (bytesOf b) = some b := rfl

theorem bytesOf_injective : Function.Injective bytesOf := fun ⟨_, _, _, _⟩ ⟨_, _, _, _⟩ h => by
  simpa [bytesOf] using h

/-- The length check accepts exactly the sequences of 4 bytes, and reads them as they are. -/
theorem bytes4?_eq_some {w : List Byte} {b : Bytes4} : bytes4? w = some b ↔ w = bytesOf b := by
  constructor
  · intro h
    unfold bytes4? at h
    split at h
    · cases h; rfl
    · cases h
  · rintro rfl; rfl

theorem bytes4?_eq_none {w : List Byte} : bytes4? w = none ↔ w.length ≠ 4 := by
  match w with
  | [] | [_] | [_, _] | [_, _, _] | [_, _, _, _] | _ :: _ :: _ :: _ :: _ :: _ => simp [bytes4?]

/-- `param1` survives its two payload bytes (R26). -/
@[simp] theorem le16_lowByte_highByte (p : Half) : le16 (lowByte p) (highByte p) = p := by
  simp only [le16, lowByte, highByte]
  ext i hi
  simp only [BitVec.getElem_append, BitVec.getElem_extractLsb']
  split <;> simp only [← BitVec.getLsbD_eq_getElem] <;> congr 1 <;> omega

@[simp] theorem lowByte_le16 (l h : Byte) : lowByte (le16 l h) = l := by
  simp only [le16, lowByte]
  ext i hi
  rw [BitVec.getElem_extractLsb']
  refine (BitVec.getLsbD_append (x := h) (y := l)).trans ?_
  simp [hi]

@[simp] theorem highByte_le16 (l h : Byte) : highByte (le16 l h) = h := by
  simp only [le16, highByte]
  ext i hi
  rw [BitVec.getElem_extractLsb']
  refine (BitVec.getLsbD_append (x := h) (y := l)).trans ?_
  simp [hi]

/-- `bytes_be32` is the inverse of `be32` (R9). -/
@[simp] theorem be32_bytesBe32 (v : Word) : be32 (bytesBe32 v) = v := by
  simp only [be32, bytesBe32]
  ext i hi
  simp only [BitVec.getElem_append, BitVec.getElem_extractLsb']
  split <;> [skip; split <;> [skip; split]] <;> simp only [← BitVec.getLsbD_eq_getElem] <;> congr 1 <;> omega

/-- R9: the little-endian bytes are the big-endian bytes reversed. -/
theorem bytesLe32_eq_rev4 (v : Word) : bytesLe32 v = rev4 (bytesBe32 v) := rfl
theorem le32_eq_be32_rev4 (b : Bytes4) : le32 b = be32 (rev4 b) := rfl

@[simp] theorem length_commandPayload (a x : Byte) (p : Half) (q : Bytes4) : (commandPayload a x p q).length = 8 := rfl

theorem isCommandCode_iff (c : Config) (x : Byte) : isCommandCode c x = true ↔ x ∈ c.commandCodes := by
  simp [isCommandCode]

theorem isRespId_iff (c : Config) (x : Nat) :
    isRespId c x = true ↔ c.respIdBase ≤ x ∧ x < c.respIdBase + c.respIdCount := by
  simp [isRespId]

/-- A command's code is a command code (R44). -/
@[simp] theorem isCommandCode_code (c : Config) (cmd : Command) : isCommandCode c (cmd.code c) = true := by
  cases cmd <;> simp [isCommandCode, Config.commandCodes, Command.code]

/-- With the spec's parameters the command codes are 1 to 5 (R44). -/
theorem Standard.commandCodes {c : Config} (h : c.Standard) : c.commandCodes = [1#8, 2#8, 3#8, 4#8, 5#8] := by
  simp [Config.commandCodes, h.codeWriteBuffer, h.codeWritePage, h.codeWriteCrc, h.codePing, h.codeSetId]

end Sys2Proof.Machine
end

