-- ==== Sys2Proof/Laws/State.lean ====
section
/-! SUPPORT. One lemma per field per update of the state, so that no proof unfolds a record update. -/

namespace Sys2Proof.Machine

variable (s : State) (k : Acc) (v : Word) (r : Result) (xs : List Input)

@[simp] theorem otherAcc_otherAcc : otherAcc (otherAcc k) = k := by cases k <;> rfl
@[simp] theorem otherAcc_ne : otherAcc k ≠ k := by cases k <;> decide

@[simp] theorem getCrc_setCrc_same : (s.setCrc k v).getCrc k = v := by cases k <;> rfl
@[simp] theorem getCrc_setCrc_other : (s.setCrc k v).getCrc (otherAcc k) = s.getCrc (otherAcc k) := by cases k <;> rfl
@[simp] theorem setCrc_cfg : (s.setCrc k v).cfg = s.cfg := by cases k <;> rfl
@[simp] theorem setCrc_inputs : (s.setCrc k v).inputs = s.inputs := by cases k <;> rfl
@[simp] theorem setCrc_result : (s.setCrc k v).result = s.result := by cases k <;> rfl

theorem getCrc_setCrc (k' : Acc) : (s.setCrc k v).getCrc k' = if k' = k then v else s.getCrc k' := by
  cases k <;> cases k' <;> rfl

@[simp] theorem setResult_crcPage : (s.setResult r).crcPage = s.crcPage := rfl
@[simp] theorem setResult_crcImage : (s.setResult r).crcImage = s.crcImage := rfl
@[simp] theorem setResult_getCrc : (s.setResult r).getCrc k = s.getCrc k := by cases k <;> rfl
@[simp] theorem setResult_cfg : (s.setResult r).cfg = s.cfg := rfl
@[simp] theorem setResult_inputs : (s.setResult r).inputs = s.inputs := rfl
@[simp] theorem setResult_result : (s.setResult r).result = some r := rfl
@[simp] theorem setResult_setResult (r' : Result) : (s.setResult r).setResult r' = s.setResult r' := rfl
@[simp] theorem setResult_setCrc : (s.setResult r).setCrc k v = (s.setCrc k v).setResult r := by cases k <;> rfl

@[simp] theorem setInputs_crcPage : (s.setInputs xs).crcPage = s.crcPage := rfl
@[simp] theorem setInputs_crcImage : (s.setInputs xs).crcImage = s.crcImage := rfl
@[simp] theorem setInputs_getCrc : (s.setInputs xs).getCrc k = s.getCrc k := by cases k <;> rfl
@[simp] theorem setInputs_cfg : (s.setInputs xs).cfg = s.cfg := rfl
@[simp] theorem setInputs_inputs : (s.setInputs xs).inputs = xs := rfl
@[simp] theorem setInputs_result : (s.setInputs xs).result = s.result := rfl

@[simp] theorem applyReset_getCrc : (applyReset s).getCrc k = s.cfg.init := by cases k <;> rfl
@[simp] theorem applyReset_cfg : (applyReset s).cfg = s.cfg := rfl
@[simp] theorem applyReset_inputs : (applyReset s).inputs = s.inputs := rfl
@[simp] theorem applyReset_result : (applyReset s).result = none := rfl

/-- A state is its four parts: the two accumulators, the configuration, the inputs and the result. -/
theorem State.eq_of_parts {s t : State} (hp : s.getCrc .page = t.getCrc .page) (hi : s.getCrc .image = t.getCrc .image)
    (hc : s.cfg = t.cfg) (hx : s.inputs = t.inputs) (hr : s.result = t.result) : s = t := by
  obtain ⟨_, _, _, _, _⟩ := s
  obtain ⟨_, _, _, _, _⟩ := t
  simp only [State.getCrc] at hp hi
  subst hp hi hc hx hr
  rfl

end Sys2Proof.Machine
end

