-- ==== Sys2Proof/Laws/Ops.lean ====
section
/-! SUPPORT. What each shared operation can do, said once: delivering a result or an error, the CRC arithmetic, the
instructions, one input, one step. -/

namespace Sys2Proof.Machine

/-- Delivering a result goes on, in the state with that result. -/
@[simp] theorem complete_eq (r : Result) (s : State) : complete r s = .next (s.setResult r) := rfl

/-- An error is delivered as a result (R125). -/
@[simp] theorem raiseError_eq (e : OpError) (s : State) : raiseError e s = .next (s.setResult (.error e)) := rfl

@[simp] theorem decodeAsResponse_eq (rx : Frame) (s : State) :
    decodeAsResponse rx s = .next (s.setResult (.response (responseFields s.cfg rx))) := rfl

@[simp] theorem decodeAsCommand_eq (rx : Frame) (s : State) :
    decodeAsCommand rx s = .next (s.setResult (.command (commandFields s.cfg rx))) := rfl

/-- A bus frame always gives a result, and nothing but the result changes. -/
theorem decodeBusFrame_next (ch : Channel) (data : List Byte) (s : State) :
    ∃ r, decodeBusFrame ch data s = .next (s.setResult r) := by
  cases ch <;> exact ⟨_, rfl⟩

theorem crcWord_nil (c : Config) (r : Word) : crcWord c r [] = r := rfl
theorem crcWord_cons (c : Config) (r : Word) (x : Byte) (w : List Byte) :
    crcWord c r (x :: w) = crcWord c (crcByte c r x) w := rfl
theorem crcStream_nil (c : Config) (r : Word) : crcStream c r [] = r := rfl
theorem crcStream_cons (c : Config) (r : Word) (w : List Byte) (ws : List (List Byte)) :
    crcStream c r (w :: ws) = crcStream c (crcWord c r w) ws := rfl

/-- R68: a concatenated stream is fed one part after the other. -/
theorem crcStream_append (c : Config) (r : Word) (ws vs : List (List Byte)) :
    crcStream c r (ws ++ vs) = crcStream c (crcStream c r ws) vs := List.foldl_append

/-- `crc_byte` with its eight bits written out, most significant first (R10). -/
theorem crcByte_of_msbFirst {c : Config} (h : c.refin = false) (r : Word) (x : Byte) :
    crcByte c r x = (bitsMsbFirst x).foldl (crcBit c) r := by
  simp [crcByte, messageBits, h]

/-- The digest is the register's bytes when nothing is reflected and nothing is XORed (R66). -/
theorem digestBytes_plain {c : Config} (hr : c.refout = false) (hx : c.xorout = 0#32) (r : Word) :
    digestBytes c r = bytesBe32 r := by
  simp [digestBytes, digestValue, hr, hx]

/-- A bit step is a shift and a conditional XOR with the generator (R10). -/
theorem crcBit_eq_shift_xor (c : Config) (r : Word) (b : Bool) :
    crcBit c r b = (r <<< 1) ^^^ (if (r.getLsbD 31 != b) then c.poly else 0#32) := by
  unfold crcBit
  split <;> simp

/-- One bit step is linear over GF(2) in register and message bit together (R69 rests on it). -/
theorem crcBit_xor (c : Config) (r r' : Word) (b b' : Bool) :
    crcBit c (r ^^^ r') (b != b') = crcBit c r b ^^^ crcBit c r' b' := by
  have hp (x y p : Word) : (x ^^^ p) ^^^ (y ^^^ p) = x ^^^ y := by
    rw [show (x ^^^ p) ^^^ (y ^^^ p) = (x ^^^ y) ^^^ (p ^^^ p) by ac_rfl]
    simp
  simp only [crcBit_eq_shift_xor, BitVec.getLsbD_xor, BitVec.shiftLeft_xor_distrib]
  cases r.getLsbD 31 <;> cases r'.getLsbD 31 <;> cases b <;> cases b' <;> simp [hp] <;> ac_rfl

/-- Every instruction goes on and gives a result; only `CRC.INIT` and `CRC.UPDATE` write an accumulator, and only
theirs. -/
theorem exec_cases (i : Instr) (s : State) :
    (∃ r, exec i s = .next (s.setResult r)) ∨
    (∃ k, i = .crcInit k ∧ exec i s = .next ((s.setCrc k s.cfg.init).setResult .done)) ∨
    (∃ k w, i = .crcUpdate k w ∧ w.length = s.cfg.wordBytes ∧
      exec i s = .next ((s.setCrc k (crcWord s.cfg (s.getCrc k) w)).setResult .done)) := by
  cases i with
  | crcInit k => exact .inr (.inl ⟨k, rfl, rfl⟩)
  | crcUpdate k w =>
    by_cases h : w.length = s.cfg.wordBytes
    · exact .inr (.inr ⟨k, w, rfl, h, by simp [exec, execCrcUpdate, h]⟩)
    · exact .inl ⟨.error (.badWordLength w.length), by simp [exec, execCrcUpdate, h]⟩
  | frameEncode board cmd param1 param2 =>
    refine .inl ?_
    simp only [exec, execFrameEncode]
    split
    · split <;> exact ⟨_, rfl⟩
    · exact ⟨_, rfl⟩
  | frameMatch rx expBoard expCmd =>
    refine .inl ?_
    simp only [exec, execFrameMatch]
    split <;> exact ⟨_, rfl⟩
  | crcDigest _ => exact .inl ⟨_, rfl⟩
  | frameRdec _ => exact .inl ⟨_, rfl⟩
  | frameCdec _ => exact .inl ⟨_, rfl⟩
  | reservedOp7 => exact .inl ⟨_, rfl⟩
  | writeBuffer _ _ _ => exact .inl ⟨_, rfl⟩
  | writePage _ _ _ => exact .inl ⟨_, rfl⟩
  | writeCrc _ _ _ => exact .inl ⟨_, rfl⟩
  | ping _ _ _ => exact .inl ⟨_, rfl⟩
  | setId _ _ _ => exact .inl ⟨_, rfl⟩
  | response _ _ _ _ _ => exact .inl ⟨_, rfl⟩

/-- An instruction whose frame fits runs; another is refused by name. -/
theorem execIfFits_cases (i : Instr) (s : State) :
    (i.frameLen ≤ s.cfg.rxMaxBytes ∧ execIfFits i s = exec i s) ∨
    (s.cfg.rxMaxBytes < i.frameLen ∧ execIfFits i s = .refused (.frameTooLong i.frameLen)) := by
  by_cases h : i.frameLen ≤ s.cfg.rxMaxBytes
  · exact .inl ⟨h, by simp [execIfFits, Instr.fits, h]⟩
  · exact .inr ⟨by omega, by simp [execIfFits, Instr.fits, h]⟩

/-- One input: reset, or an instruction, or a bus frame that is no row and is decoded all the same, or a refusal. -/
theorem present_cases (x : Input) (s : State) :
    (x = .reset ∧ present x s = .next (applyReset s)) ∨
    (∃ i, decode s.cfg x = .ok i ∧ present x s = exec i s) ∨
    (∃ ch data r, x = .busFrame ch data ∧ present x s = .next (s.setResult r)) ∨
    (∃ n, s.cfg.rxMaxBytes < n ∧ present x s = .refused (.frameTooLong n)) := by
  cases x with
  | reset => exact .inl ⟨rfl, rfl⟩
  | request q =>
    obtain ⟨-, h⟩ | ⟨hn, h⟩ := execIfFits_cases (decodeRequest q) s
    · exact .inr (.inl ⟨_, rfl, h⟩)
    · exact .inr (.inr (.inr ⟨_, hn, h⟩))
  | busFrame ch data =>
    simp only [present]
    split
    · rename_i i hi
      obtain ⟨-, h⟩ | ⟨hn, h⟩ := execIfFits_cases i s
      · exact .inr (.inl ⟨i, hi, h⟩)
      · exact .inr (.inr (.inr ⟨_, hn, h⟩))
    · split
      · obtain ⟨r, hr⟩ := decodeBusFrame_next ch data s
        exact .inr (.inr (.inl ⟨ch, data, r, rfl, hr⟩))
      · rename_i hn
        exact .inr (.inr (.inr ⟨_, by omega, rfl⟩))

/-- One step: it waits, or performs the oldest input. -/
theorem step_cases (s : State) :
    (s.inputs = [] ∧ step s = .next s) ∨
    (∃ x rest, s.inputs = x :: rest ∧ step s = present x (s.setInputs rest)) := by
  obtain h | ⟨x, rest, h⟩ : s.inputs = [] ∨ ∃ x rest, s.inputs = x :: rest := by
    cases s.inputs with
    | nil => exact .inl rfl
    | cons x rest => exact .inr ⟨x, rest, rfl⟩
  · exact .inl ⟨h, by simp [step, h]⟩
  · exact .inr ⟨x, rest, h, by simp [step, h]⟩

@[simp] theorem setInputs_pushInput (s : State) (x : Input) : (s.pushInput x).setInputs s.inputs = s := rfl

/-- Presenting one input to a state whose other inputs wait. -/
theorem step_pushInput (s : State) (x : Input) : step (s.pushInput x) = present x s := rfl

end Sys2Proof.Machine
end

