-- ==== Sys2Proof/Laws/Present.lean ====
section
/-! SUPPORT. Which inputs a step can take: the length of the frame an input carries, what well-formedness gives, and the
frame relations of Safety.lean. -/

namespace Sys2Proof.Machine

/-- Every instruction answers a next state (R125: an error is a result). -/
theorem exec_next (i : Instr) (s : State) : ∃ t, exec i s = .next t := by
  obtain ⟨r, h⟩ | ⟨k, -, h⟩ | ⟨k, w, -, -, h⟩ := exec_cases i s <;> exact ⟨_, h⟩

/-- A request's frame length is that of `rx`, for the operations that take one (R51). -/
theorem frameLen_decodeRequest (r : Request) :
    (decodeRequest r).frameLen = if r.op = 4#3 ∨ r.op = 5#3 ∨ r.op = 6#3 then r.rx.len else 0 := by
  obtain ⟨op, _⟩ := r
  have h : ∀ op : BitVec 3, op = 0 ∨ op = 1 ∨ op = 2 ∨ op = 3 ∨ op = 4 ∨ op = 5 ∨ op = 6 ∨ op = 7 := by decide
  obtain h | h | h | h | h | h | h | h := h op <;> subst h <;> simp [decodeRequest, Instr.frameLen]

/-- A command frame that decodes has 8 bytes and one of the five codes, and decodes to that command's row. -/
theorem decodeCommand_ok {c : Config} {data : List Byte} {i : Instr} (h : decodeCommand c data = .ok i) :
    ∃ a code p q, data = commandPayload a code p q ∧
      ((code = c.codeWriteBuffer ∧ i = .writeBuffer a p q) ∨ (code = c.codeWritePage ∧ i = .writePage a p q) ∨
        (code = c.codeWriteCrc ∧ i = .writeCrc a p q) ∨ (code = c.codePing ∧ i = .ping a p q) ∨
        (code = c.codeSetId ∧ i = .setId a p q)) := by
  unfold decodeCommand at h
  split at h
  · rename_i a code lo hi d4 d5 d6 d7
    refine ⟨a, code, le16 lo hi, rev4 ⟨d4, d5, d6, d7⟩, by simp [commandPayload, bytesOf], ?_⟩
    split_ifs at h <;> cases h <;> simp_all
  · cases h

/-- A response frame that decodes has the layout of R48. -/
theorem decodeResponse_ok {n : Nat} {data : List Byte} {i : Instr} (h : decodeResponse n data = .ok i) :
    ∃ a code status tail, data = responsePayload a code status tail ∧ i = .response n a code status tail := by
  unfold decodeResponse at h
  split at h
  · cases h; exact ⟨_, _, _, _, rfl, rfl⟩
  · cases h

/-- A bus frame's instruction has the frame's length. -/
theorem frameLen_of_decode {c : Config} {ch : Channel} {data : List Byte} {i : Instr}
    (h : decode c (.busFrame ch data) = .ok i) : i.frameLen = data.length := by
  cases ch with
  | command =>
    obtain ⟨a, code, p, q, rfl, ⟨-, rfl⟩ | ⟨-, rfl⟩ | ⟨-, rfl⟩ | ⟨-, rfl⟩ | ⟨-, rfl⟩⟩ := decodeCommand_ok h <;> rfl
  | response n =>
    obtain ⟨a, code, status, tail, rfl, rfl⟩ := decodeResponse_ok h
    simp only [Instr.frameLen, responsePayload, List.length_cons]
    omega

/-- A well-formed instruction's frame can be presented (R54). -/
theorem Instr.fits_of_wf {c : Config} {i : Instr} (h : i.wf c = true) : i.fits c = true := by
  cases i <;> simp_all [Instr.wf, Instr.fits, Instr.frameLen, Frame.wf]

theorem State.SameButResult.refl (s : State) : s.SameButResult s := ⟨rfl, rfl, rfl, rfl⟩

theorem State.SameButResult.trans {s t u : State} (h : s.SameButResult t) (g : t.SameButResult u) : s.SameButResult u :=
  ⟨g.crcPage.trans h.crcPage, g.crcImage.trans h.crcImage, g.cfg.trans h.cfg, g.inputs.trans h.inputs⟩

theorem State.SameButResult.getCrc {s t : State} (h : s.SameButResult t) (k : Acc) : t.getCrc k = s.getCrc k := by
  cases k
  · exact h.crcPage
  · exact h.crcImage

theorem State.sameButResult_setResult (s : State) (r : Result) : s.SameButResult (s.setResult r) := ⟨rfl, rfl, rfl, rfl⟩

/-- The host's run of the machine is `runSteps`. -/
theorem core_run_eq (n : Nat) (s : State) : Host.Core.run core n s = runSteps n s := by
  induction n generalizing s with
  | zero => rfl
  | succ n ih =>
    have hc : core.step s = step s := rfl
    cases hs : step s with
    | next t => simp only [Host.Core.run, runSteps, hc.trans hs, hs]; exact ih t
    | fault r => cases r
    | refused r => simp only [Host.Core.run, runSteps, hc.trans hs, hs]; rfl

end Sys2Proof.Machine
end

