-- ==== Sys2Proof/Laws/Environment.lean ====
section
/-! SUPPORT. What asking the block one request, and sending one frame, can do to the environment. -/

namespace Sys2Proof.Environment

open Machine

/-- A request the block performs: the block is in the instruction's next state and its result is handed over. -/
theorem ask_of_exec {r : Request} {e : Env} {t : State} (hf : (decodeRequest r).frameLen ≤ e.block.cfg.rxMaxBytes)
    (hx : exec (decodeRequest r) e.block = .next t) : ask r e = ({ e with block := t }, t.result) := by
  simp [ask, step_pushInput, present, execIfFits, Instr.fits, hf, hx]

/-- A request whose frame cannot be presented leaves everything as it was. -/
theorem ask_of_overlong {r : Request} {e : Env} (hf : e.block.cfg.rxMaxBytes < (decodeRequest r).frameLen) :
    ask r e = (e, none) := by
  simp [ask, step_pushInput, present, execIfFits, Instr.fits, Nat.not_le.mpr hf]

/-- Asking never touches what was sent, what the bus will do, or the client's state. -/
theorem ask_frame (r : Request) (e : Env) :
    (ask r e).1.sent = e.sent ∧ (ask r e).1.world = e.world ∧ (ask r e).1.client = e.client := by
  unfold ask
  split <;> exact ⟨rfl, rfl, rfl⟩

/-- Sending appends the frame to what was sent and touches neither the block nor the client's state. -/
theorem sendFrame_spec (f : Frame) (e : Env) :
    (sendFrame f e).1.sent = e.sent ++ [f] ∧ (sendFrame f e).1.block = e.block ∧
      (sendFrame f e).1.client = e.client ∧ (sendFrame f e).1.world = e.world.tail := by
  unfold sendFrame
  split <;> simp_all

theorem settleClient_frame {α : Type} (x : Env × Except EnvError α) :
    (settleClient x).2 = x.2 ∧ (settleClient x).1.block = x.1.block ∧ (settleClient x).1.sent = x.1.sent ∧
      (settleClient x).1.world = x.1.world := by
  obtain ⟨e, _ | _⟩ := x <;> exact ⟨rfl, rfl, rfl, rfl⟩

/-- Asking for the encoding of a command with a 4-byte parameter gives the command's frame (R75, R90). -/
theorem ask_encodeRequest (e : Env) (board : Byte) (cmd : Command) (param1 : Half) (param2 : Bytes4) :
    let f := commandFrame e.block.cfg board (cmd.code e.block.cfg) param1 param2
    ask (encodeRequest e.block.cfg board cmd param1 (bytesOf param2)) e =
      ({ e with block := e.block.setResult (.frame f) }, some (.frame f)) := by
  refine ask_of_exec (Nat.zero_le _) ?_
  simp [decodeRequest, encodeRequest, exec, execFrameEncode]

/-- Everything of the environment but the block's result record and the client's state is the same. -/
structure Quiet (e e' : Env) : Prop where
  block : e.block.SameButResult e'.block
  sent : e'.sent = e.sent
  world : e'.world = e.world

theorem Quiet.refl (e : Env) : Quiet e e := ⟨.refl _, rfl, rfl⟩

theorem Quiet.trans {a b c : Env} (h : Quiet a b) (g : Quiet b c) : Quiet a c :=
  ⟨h.block.trans g.block, g.sent.trans h.sent, g.world.trans h.world⟩

/-- Filtering one received frame: the filter's answer, or nothing at all for a frame that cannot be presented. -/
theorem ask_matchRequest (e : Env) (rx : Frame) (expBoard : Byte) (cmd : Command) :
    let status := matchStatus e.block.cfg rx expBoard (cmd.code e.block.cfg)
    (rx.len ≤ e.block.cfg.rxMaxBytes ∧ ask (matchRequest e.block.cfg rx expBoard cmd) e =
      ({ e with block := e.block.setResult (.matched status) }, some (.matched status))) ∨
    (e.block.cfg.rxMaxBytes < rx.len ∧ ask (matchRequest e.block.cfg rx expBoard cmd) e = (e, none)) := by
  by_cases h : rx.len ≤ e.block.cfg.rxMaxBytes
  · refine .inl ⟨h, ask_of_exec h ?_⟩
    simp [decodeRequest, matchRequest, exec, execFrameMatch]
  · exact .inr ⟨by omega, ask_of_overlong (by simpa [decodeRequest, matchRequest, Instr.frameLen] using h)⟩

/-- Waiting for a match changes nothing but the block's result record (R107). -/
theorem awaitMatch_quiet (expBoard : Byte) (cmd : Command) (frames : List Frame) (e : Env) :
    Quiet e (awaitMatch expBoard cmd frames e).1 := by
  induction frames generalizing e with
  | nil => exact .refl _
  | cons rx rest ih =>
    have hq : Quiet e (ask (matchRequest e.block.cfg rx expBoard cmd) e).1 := by
      obtain ⟨-, h⟩ | ⟨-, h⟩ := ask_matchRequest e rx expBoard cmd <;> rw [h]
      · exact ⟨State.sameButResult_setResult _ _, rfl, rfl⟩
      · exact .refl _
    unfold awaitMatch
    split
    · rename_i h; rw [h] at hq; exact hq
    · rename_i e' _ _ h; rw [h] at hq; exact hq.trans (ih e')

/-- Frames none of which matches end the wait without a status. -/
theorem awaitMatch_none {expBoard : Byte} {cmd : Command} {frames : List Frame} {e : Env}
    (h : ∀ f ∈ frames, matchStatus e.block.cfg f expBoard (cmd.code e.block.cfg) = none) :
    (awaitMatch expBoard cmd frames e).2 = none := by
  induction frames generalizing e with
  | nil => rfl
  | cons rx rest ih =>
    have h1 := h rx (by simp)
    have h2 : ∀ f ∈ rest, matchStatus e.block.cfg f expBoard (cmd.code e.block.cfg) = none :=
      fun f hf => h f (by simp [hf])
    unfold awaitMatch
    obtain ⟨-, hh⟩ | ⟨-, hh⟩ := ask_matchRequest e rx expBoard cmd
    · rw [hh, h1]; exact ih h2
    · rw [hh]; exact ih h2

/-- The first frame that matches ends the wait with its status. -/
theorem awaitMatch_some {expBoard status : Byte} {cmd : Command} {before after : List Frame} {reply : Frame} {e : Env}
    (h : ∀ f ∈ before, matchStatus e.block.cfg f expBoard (cmd.code e.block.cfg) = none)
    (hl : reply.len ≤ e.block.cfg.rxMaxBytes)
    (hr : matchStatus e.block.cfg reply expBoard (cmd.code e.block.cfg) = some status) :
    (awaitMatch expBoard cmd (before ++ reply :: after) e).2 = some status := by
  induction before generalizing e with
  | nil =>
    obtain ⟨-, hh⟩ | ⟨hlt, -⟩ := ask_matchRequest e reply expBoard cmd
    · simp only [List.nil_append]
      unfold awaitMatch
      rw [hh, hr]
    · omega
  | cons rx rest ih =>
    have h1 := h rx (by simp)
    have h2 : ∀ f ∈ rest, matchStatus e.block.cfg f expBoard (cmd.code e.block.cfg) = none :=
      fun f hf => h f (by simp [hf])
    simp only [List.cons_append]
    unfold awaitMatch
    obtain ⟨-, hh⟩ | ⟨-, hh⟩ := ask_matchRequest e rx expBoard cmd
    · rw [hh, h1]; exact ih h2 hl hr
    · rw [hh]; exact ih h2 hl hr

/-- What the bus does with the next frame: the world's oldest attempt, or silence. -/
theorem sendFrame_attempt (f : Frame) (e : Env) : (sendFrame f e).2 = e.world.head?.getD ⟨true, []⟩ := by
  unfold sendFrame
  split <;> simp_all

/-- The attempts of `command_response` send one frame only, at most once each, and at least once if there is any. -/
theorem attemptLoop_sent (f : Frame) (expBoard : Byte) (cmd : Command) (n : Nat) (e : Env) :
    ∃ k, k ≤ n ∧ (0 < n → 0 < k) ∧ (attemptLoop f expBoard cmd n e).1.sent = e.sent ++ List.replicate k f := by
  induction n generalizing e with
  | zero => exact ⟨0, by simp [attemptLoop]⟩
  | succ n ih =>
    unfold attemptLoop
    obtain ⟨hs, -⟩ := sendFrame_spec f e
    generalize sendFrame f e = x at *
    obtain ⟨e1, a⟩ := x
    simp only at hs ⊢
    split
    · have hq := (awaitMatch_quiet expBoard cmd a.received e1).sent
      generalize awaitMatch expBoard cmd a.received e1 = y at *
      obtain ⟨e2, _ | status⟩ := y
      · obtain ⟨k, hk, -, h⟩ := ih e2
        refine ⟨k + 1, by omega, by omega, ?_⟩
        simp only at hq
        simp only [h]
        rw [hq, hs, List.append_assoc]; rfl
      · refine ⟨1, by omega, by omega, ?_⟩
        simp only at hq ⊢
        split <;> simp [hq, hs]
    · exact ⟨1, by omega, by omega, by simp [hs]⟩

/-- The handshake writes no accumulator, sends `Ping` frames to its board only, at most one for each try, and exactly one
for each try when it fails. -/
theorem pingLoop_spec (board : Byte) (params : Nat → Half × Bytes4) (n : Nat) (e : Env) :
    e.block.SameButResult (pingLoop board params n e).1.block ∧
    ∃ pings, (pingLoop board params n e).1.sent = e.sent ++ pings ∧ pings.length ≤ n ∧
      ((pingLoop board params n e).2 = false → pings.length = n) ∧
      ∀ f ∈ pings, ∃ p q, f = commandFrame e.block.cfg board e.block.cfg.codePing p q := by
  induction n generalizing e with
  | zero => exact ⟨.refl _, [], by simp [pingLoop]⟩
  | succ n ih =>
    unfold pingLoop
    rw [ask_encodeRequest]
    have hb := State.sameButResult_setResult e.block
      (.frame (commandFrame e.block.cfg board (Command.ping.code e.block.cfg) (params n).1 (params n).2))
    generalize e.block.setResult _ = b at hb ⊢
    obtain ⟨hs, hblock, -⟩ := sendFrame_spec
      (commandFrame e.block.cfg board (Command.ping.code e.block.cfg) (params n).1 (params n).2) { e with block := b }
    simp only
    generalize sendFrame _ { e with block := b } = x at *
    obtain ⟨e1, a⟩ := x
    simp only at hs hblock ⊢
    subst hblock
    have again : ∀ e2 : Env, Quiet e1 e2 → e.block.SameButResult (pingLoop board params n e2).1.block ∧
        ∃ pings, (pingLoop board params n e2).1.sent = e.sent ++ pings ∧ pings.length ≤ n + 1 ∧
          ((pingLoop board params n e2).2 = false → pings.length = n + 1) ∧
          ∀ f ∈ pings, ∃ p q, f = commandFrame e.block.cfg board e.block.cfg.codePing p q := by
      intro e2 hq
      have h2 := hb.trans hq.block
      obtain ⟨h, pings, h3, h4, h5, h6⟩ := ih e2
      refine ⟨h2.trans h, commandFrame e.block.cfg board e.block.cfg.codePing (params n).1 (params n).2 :: pings, ?_⟩
      refine ⟨by rw [h3, hq.sent, hs, List.append_assoc]; rfl, by simp; omega, fun hf => by simp [h5 hf], ?_⟩
      intro f hf
      obtain rfl | hf := List.mem_cons.mp hf
      · exact ⟨_, _, rfl⟩
      · rw [← h2.cfg]; exact h6 f hf
    split
    · have hq := awaitMatch_quiet board .ping a.received e1
      generalize awaitMatch board .ping a.received e1 = y at *
      obtain ⟨e2, _ | status⟩ := y
      · exact again e2 hq
      · refine ⟨hb.trans hq.block, [commandFrame e.block.cfg board e.block.cfg.codePing (params n).1 (params n).2], ?_⟩
        refine ⟨hq.sent.trans hs, by simp, by simp, ?_⟩
        intro f hf
        exact ⟨_, _, List.mem_singleton.mp hf⟩
    · exact again e1 (.refl _)

/-- `CRC.INIT` by request. -/
theorem ask_crcInit (k : Acc) (e : Env) :
    ask { op := 0#3, k := k } e =
      ({ e with block := (e.block.setCrc k e.block.cfg.init).setResult .done }, some .done) :=
  ask_of_exec (Nat.zero_le _) rfl

/-- `CRC.UPDATE` by request, with a word of 4 bytes. -/
theorem ask_crcUpdate (k : Acc) (w : Bytes4) (e : Env) (h : e.block.cfg.wordBytes = 4) :
    let v := crcWord e.block.cfg (e.block.getCrc k) (bytesOf w)
    ask { op := 1#3, k := k, w := bytesOf w } e =
      ({ e with block := (e.block.setCrc k v).setResult .done }, some .done) :=
  ask_of_exec (Nat.zero_le _) (by simp [decodeRequest, exec, execCrcUpdate, h])

/-- `CRC.DIGEST` by request: the digest's bytes, and only the result record changes. -/
theorem askDigest_eq (k : Acc) (e : Env) :
    let d := digestBytes e.block.cfg (e.block.getCrc k)
    askDigest k e = ({ e with block := e.block.setResult (.digest d) }, bytesOf d) := by
  unfold askDigest
  rw [ask_of_exec (t := e.block.setResult (.digest (digestBytes e.block.cfg (e.block.getCrc k)))) (Nat.zero_le _) rfl]
  rfl

theorem askAll_append (xs ys : List Request) (e : Env) : askAll (xs ++ ys) e = askAll ys (askAll xs e) := by
  induction xs generalizing e with
  | nil => rfl
  | cons x xs ih => exact ih _

end Sys2Proof.Environment
end

