-- ==== Sys2Proof/Laws/PerInstr.lean ====
section
/-! SUPPORT. A family of statements per instruction: what a well-formed instruction encodes to is an input the interface
can carry. -/

namespace Sys2Proof.Laws.EncodeIsPresentable

open Machine

/-- The encoding of a well-formed instruction is a well-formed input. -/
def Statement (i : Instr) : Prop := ∀ c : Config, i.wf c = true → (encode c i).wf c = true

theorem crcInit (k : Acc) : Statement (.crcInit k) := fun _ _ => rfl
theorem crcUpdate (k : Acc) (w : List Byte) : Statement (.crcUpdate k w) := fun _ _ => rfl
theorem crcDigest (k : Acc) : Statement (.crcDigest k) := fun _ _ => rfl
theorem frameEncode (board : Byte) (cmd : Byte) (param1 : Half) (param2 : List Byte) :
    Statement (.frameEncode board cmd param1 param2) := fun _ _ => rfl
theorem frameMatch (rx : Frame) (expBoard : Byte) (expCmd : Byte) : Statement (.frameMatch rx expBoard expCmd) :=
  fun _ h => h
theorem frameRdec (rx : Frame) : Statement (.frameRdec rx) := fun _ h => h
theorem frameCdec (rx : Frame) : Statement (.frameCdec rx) := fun _ h => h
theorem reservedOp7 : Statement .reservedOp7 := fun _ _ => rfl
theorem writeBuffer (addr : Byte) (param1 : Half) (param2 : Bytes4) : Statement (.writeBuffer addr param1 param2) :=
  fun _ h => h
theorem writePage (addr : Byte) (param1 : Half) (param2 : Bytes4) : Statement (.writePage addr param1 param2) :=
  fun _ h => h
theorem writeCrc (addr : Byte) (param1 : Half) (param2 : Bytes4) : Statement (.writeCrc addr param1 param2) :=
  fun _ h => h
theorem ping (addr : Byte) (param1 : Half) (param2 : Bytes4) : Statement (.ping addr param1 param2) := fun _ h => h
theorem setId (addr : Byte) (param1 : Half) (param2 : Bytes4) : Statement (.setId addr param1 param2) := fun _ h => h
theorem response (channel : Nat) (addr : Byte) (code : Byte) (status : Byte) (tail : List Byte) :
    Statement (.response channel addr code status tail) := fun c h => by
  simp only [Instr.wf, Bool.and_eq_true, decide_eq_true_eq] at h
  simp only [encode, Input.wf, Channel.wf, responsePayload, List.length_cons, Bool.and_eq_true, decide_eq_true_eq]
  omega

end Sys2Proof.Laws.EncodeIsPresentable
end

