-- ==== Sys2Proof/Machine/Assembly.lean ====
section
/-! DEFINITION. The operation-sequence syntax (spec/30_encoding.md R56): one operation per line, mnemonic in lower case,
operands separated by commas, bytes as two hexadecimal digits, a result after `->`. Notation only; nothing else of the model
reads it. -/

namespace Sys2Proof.Machine

/-- One hexadecimal digit. -/
def hexDigit (n : Nat) : Char :=
  if n < 10 then Char.ofNat (48 + n) else Char.ofNat (55 + n)

/-- Two hexadecimal digits. -/
def hexByte (b : Byte) : String := String.ofList [hexDigit (b.toNat / 16), hexDigit (b.toNat % 16)]

/-- `param1` as four hexadecimal digits. -/
def hexHalf (p : Half) : String := hexByte (highByte p) ++ hexByte (lowByte p)

/-- A byte sequence: two-digit bytes separated by spaces. -/
def hexBytes (w : List Byte) : String := String.intercalate " " (w.map hexByte)

/-- `k`: `0` or `1`. -/
def asmAcc (k : Acc) : String :=
  match k with
  | .page => "0"
  | .image => "1"

/-- `Cmd`: a command name, or the code where it is not assigned. -/
def asmCommand (c : Config) (x : Byte) : String :=
  if x = c.codeWriteBuffer then "WriteBuffer"
  else if x = c.codeWritePage then "WritePage"
  else if x = c.codeWriteCrc then "WriteCrc"
  else if x = c.codePing then "Ping"
  else if x = c.codeSetId then "SetId"
  else hexByte x

/-- `id=... len=n data= x0 ... x(n-1)`. R56 gives no form for a numeric identifier: it is written in decimal, as `len` is,
and `CMD_ID` by its name. DESIGN CHOICE, log 29. -/
def asmFrame (c : Config) (f : Frame) : String :=
  "id=" ++ (if f.id = c.cmdId then "CMD_ID" else toString f.id) ++ " len=" ++ toString f.len ++ " data= " ++ hexBytes f.data

/-- An operation in the syntax of R56; op 7 and the frame rows have none. -/
def asmInstr (c : Config) (i : Instr) : Option String :=
  match i with
  | .crcInit k => some ("crc.init " ++ asmAcc k)
  | .crcUpdate k w => some ("crc.update " ++ asmAcc k ++ ", " ++ hexBytes w)
  | .crcDigest k => some ("crc.digest " ++ asmAcc k)
  | .frameEncode board cmd param1 param2 =>
    some ("frame.encode " ++ hexByte board ++ ", " ++ asmCommand c cmd ++ ", " ++ hexHalf param1 ++ ", " ++ hexBytes param2)
  | .frameMatch rx expBoard expCmd =>
    some ("frame.match " ++ asmFrame c rx ++ ", " ++ hexByte expBoard ++ ", " ++ asmCommand c expCmd)
  | .frameRdec rx => some ("frame.rdec " ++ asmFrame c rx)
  | .frameCdec rx => some ("frame.cdec " ++ asmFrame c rx)
  | .reservedOp7 | .writeBuffer _ _ _ | .writePage _ _ _ | .writeCrc _ _ _ | .ping _ _ _ | .setId _ _ _
  | .response _ _ _ _ _ => none

/-- An error by its name (R126 to R129), with the information it records. -/
def asmError (e : OpError) : String :=
  match e with
  | .badParam2Length n => "BadParam2Length(" ++ toString n ++ ")"
  | .badWordLength n => "BadWordLength(" ++ toString n ++ ")"
  | .illegalCommand x => "IllegalCommand(" ++ hexByte x ++ ")"
  | .illegalOp => "IllegalOp"

/-- What stands after `->` (R56); nothing for an operation that has no result. -/
def asmResult (c : Config) (r : Result) : String :=
  match r with
  | .done => ""
  | .digest d => hexBytes (bytesOf d)
  | .frame f => asmFrame c f
  | .matched none => "match=0"
  | .matched (some status) => "match=1 status=" ++ hexByte status
  | .response none => "valid=0"
  | .response (some f) =>
    "valid=1 board=" ++ hexByte f.board ++ " code=" ++ hexByte f.code ++ " status=" ++ hexByte f.status
  | .command none => "valid=0"
  | .command (some f) =>
    "valid=1 known=" ++ (if f.known then "1" else "0") ++ " board=" ++ hexByte f.board ++ " code=" ++ hexByte f.code ++
      " param1=" ++ hexHalf f.param1 ++ " param2= " ++ hexBytes (bytesOf f.param2)
  | .error e => "error " ++ asmError e

end Sys2Proof.Machine
end

