-- ==== Sys2Proof/Tests/Slice0.lean ====
section
/-! SUPPORT. Tests of one step on small states, with values from spec/95_test_vectors.md, and for each statement with
hypotheses a state and operands that meet them. -/

namespace Sys2Proof.Tests

open Machine Environment Reference

/-- A deployment for the tests: the spec's values, and identifiers chosen here. -/
def cfg : Config := { cmdId := 0x100, respIdBase := 0x200, respIdCount := 4, idWidth := 11 }

/-- The same with pages of two words, for the environment. -/
def smallCfg : Config := { cfg with pageBytes := 8, wordsPerPage := 2 }

/-- A state with the given accumulators. -/
def st (page image : Word) (inputs : List Input := []) : State := ⟨page, image, cfg, inputs, none⟩

/-- The result record after one instruction. -/
def resultOf (x : Ran) : Option Result :=
  match x with
  | .next t => t.result
  | .fault _ => none
  | .refused _ => none

/-- The accumulators after one instruction. -/
def crcsOf (x : Ran) : Option (Word × Word) :=
  match x with
  | .next t => some (t.crcPage, t.crcImage)
  | .fault _ => none
  | .refused _ => none

/-- An environment around a block just reset, in the small deployment. -/
def env (world : List Attempt) : Env := ⟨⟨0#32, 0#32, smallCfg, [], none⟩, world, [], .idle⟩

/-- The answer of board 0x12 to a command with the given code and status. -/
def answer (code status : Byte) : Attempt := ⟨true, [⟨0x200, [0x12#8, code, status]⟩]⟩

theorem cfg_standard : cfg.Standard := by constructor <;> rfl

theorem cfg_consistent : cfg.Consistent := by constructor <;> decide

/-! ### Well-formedness: each check refuses an ill-formed term -/

theorem wf_accepts_full_frame : (Instr.frameRdec ⟨0x200, List.replicate 8 0#8⟩).wf cfg = true := by decide
theorem wf_refuses_long_match : (Instr.frameMatch ⟨0x200, List.replicate 9 0#8⟩ 0#8 1#8).wf cfg = false := by decide
theorem wf_refuses_long_rdec : (Instr.frameRdec ⟨0x200, List.replicate 9 0#8⟩).wf cfg = false := by decide
theorem wf_refuses_long_cdec : (Instr.frameCdec ⟨0x100, List.replicate 9 0#8⟩).wf cfg = false := by decide
theorem wf_refuses_wide_id : (Instr.frameRdec ⟨2048, [0#8]⟩).wf cfg = false := by decide
theorem wf_refuses_channel : (Instr.response 4 0#8 0#8 0#8 []).wf cfg = false := by decide
theorem wf_refuses_long_tail : (Instr.response 3 0#8 0#8 0#8 (List.replicate 6 0#8)).wf cfg = false := by decide
theorem wf_refuses_command_in_short_bus : (Instr.ping 0#8 0#16 ⟨0, 0, 0, 0⟩).wf { cfg with rxMaxBytes := 7 } = false := by
  decide
theorem input_wf_refuses_long_frame : (Input.busFrame .command (List.replicate 9 0#8)).wf cfg = false := by decide
theorem input_wf_refuses_channel : (Input.busFrame (.response 4) [0#8]).wf cfg = false := by decide
theorem input_wf_refuses_long_rx : (Input.request { op := 5#3, rx := ⟨0, List.replicate 9 0#8⟩ }).wf cfg = false := by
  decide
theorem input_wf_ignores_unused_rx : (Input.request { op := 0#3, rx := ⟨0, List.replicate 9 0#8⟩ }).wf cfg = true := by
  decide

/-! ### Decoding: words written out from R47, R48, R52 and the frames of 95_test_vectors.md -/

theorem decode_crcInit : decodeTableWord 8 0b000 = some (.crcInit .page) := by decide
theorem decode_crcUpdate : decodeTableWord 8 0b001 = some (.crcUpdate .page [0, 0, 0, 0]) := by decide
theorem decode_crcDigest : decodeTableWord 8 0b010 = some (.crcDigest .page) := by decide
theorem decode_frameEncode : decodeTableWord 8 0b011 = some (.frameEncode 0 0 0 [0, 0, 0, 0]) := by decide
theorem decode_frameMatch : decodeTableWord 8 0b100 = some (.frameMatch ⟨0, []⟩ 0 0) := by decide
theorem decode_frameRdec : decodeTableWord 8 0b101 = some (.frameRdec ⟨0, []⟩) := by decide
theorem decode_frameCdec : decodeTableWord 8 0b110 = some (.frameCdec ⟨0, []⟩) := by decide
theorem decode_reservedOp7 : decodeTableWord 8 0b111 = some .reservedOp7 := by decide
theorem decode_writeBuffer : decodeTableWord 64
    0b0001001000000001000000100000000111010100110000111011001010100001 =
      some (.writeBuffer 0x12 0x0102 ⟨0xA1, 0xB2, 0xC3, 0xD4⟩) := by decide
theorem decode_writePage : decodeTableWord 64 0x12020000_08520A8B =
    some (.writePage 0x12 0x0000 ⟨0x8B, 0x0A, 0x52, 0x08⟩) := by decide
theorem decode_writeCrc : decodeTableWord 64 0x12030200_70E8A286 =
    some (.writeCrc 0x12 0x0002 ⟨0x86, 0xA2, 0xE8, 0x70⟩) := by decide
theorem decode_ping : decodeTableWord 64 0xFF04FFFF_FFFFFFFF =
    some (.ping 0xFF 0xFFFF ⟨0xFF, 0xFF, 0xFF, 0xFF⟩) := by decide
theorem decode_setId : decodeTableWord 64 0x00052A00_00000000 =
    some (.setId 0x00 0x002A ⟨0, 0, 0, 0⟩) := by decide
theorem decode_response : decodeTableWord 24 0x120107 = some (.response 0 0x12 0x01 0x07 []) := by decide
theorem decode_rejects_code_0 : decode cfg (.busFrame .command [0x12, 0, 0, 0, 0, 0, 0, 0]) =
    .error (.unassignedCode 0) := by decide
theorem decode_rejects_code_6 : decode cfg (.busFrame .command [0x12, 6, 0, 0, 0, 0, 0, 0]) =
    .error (.unassignedCode 6) := by decide
theorem decode_rejects_short_command : decode cfg (.busFrame .command [0x12, 1, 0, 0, 0, 0, 0]) =
    .error (.commandLength 7) := by decide
theorem decode_rejects_short_response : decode cfg (.busFrame (.response 0) [0x12, 1]) =
    .error (.responseLength 2) := by decide
theorem decode_image_accumulator : decode cfg (.request { op := 2#3, k := .image }) = .ok (.crcDigest .image) := by decide

/-! ### The CRC operations (95_test_vectors.md 2.1 to 2.3) -/

theorem test_crcBit_first_step : crcBit cfg 0xFFFFFFFF false = 0xFB3EE249 := by decide
theorem test_crcByte : crcByte cfg 0xFFFFFFFF 0x31 = 0x9EFBCF93 := by decide
theorem test_crcInit_image : crcsOf (exec (.crcInit .image) (st 0x12345678 0x9ABCDEF0)) =
    some (0x12345678, 0xFFFFFFFF) := by decide
theorem test_crcUpdate_page : crcsOf (exec (.crcUpdate .page [0x31, 0x32, 0x33, 0x34]) (st 0xFFFFFFFF 7)) =
    some (0xA695C4AA, 7) := by decide +kernel
theorem test_crcUpdate_byte_position : crcsOf (exec (.crcUpdate .image [0x01, 0, 0, 0]) (st 5 0)) =
    some (5, 0xDC6D9AB7) := by decide +kernel
theorem test_crcUpdate_short_word : exec (.crcUpdate .page [1, 2, 3]) (st 9 8) =
    .next { st 9 8 with result := some (.error (.badWordLength 3)) } := rfl
theorem test_crcDigest : resultOf (exec (.crcDigest .image) (st 0 0x04C11DB7)) =
    some (.digest ⟨0x04, 0xC1, 0x1D, 0xB7⟩) := by decide
theorem test_table_entries : table 0 = 0 ∧ table 1 = 0x04C11DB7 ∧ table 2 = 0x09823B6E ∧ table 128 = 0x690CE0EE ∧
    table 255 = 0xB1F740B4 := by decide

/-! ### The codec (2.4 to 2.6) -/

theorem test_frameEncode : resultOf (exec (.frameEncode 0xFE 3 0xFF01 [1, 2, 3, 4]) (st 0 0)) =
    some (.frame ⟨0x100, [0xFE, 3, 0x01, 0xFF, 4, 3, 2, 1]⟩) := by decide
theorem test_frameEncode_priority : resultOf (exec (.frameEncode 0x12 6 0 [1, 2, 3]) (st 0 0)) =
    some (.error (.illegalCommand 6)) := by decide
theorem test_frameMatch_status : resultOf (exec (.frameMatch ⟨0x203, [0x12, 1, 0xFF, 0x99]⟩ 0x12 1) (st 0 0)) =
    some (.matched (some 0xFF)) := by decide
theorem test_frameMatch_outside_range : resultOf (exec (.frameMatch ⟨0x204, [0x12, 1, 0]⟩ 0x12 1) (st 0 0)) =
    some (.matched none) := by decide
theorem test_frameRdec_raw : resultOf (exec (.frameRdec ⟨0x200, [0xFF, 9, 0x80]⟩) (st 0 0)) =
    some (.response (some ⟨0xFF, 9, 0x80⟩)) := by decide
theorem test_frameRdec_short : resultOf (exec (.frameRdec ⟨0x200, [7, 4]⟩) (st 0 0)) =
    some (.response none) := by decide
theorem test_frameCdec_unknown : resultOf (exec (.frameCdec ⟨0x100, [0x12, 6, 0x34, 0x12, 4, 3, 2, 1]⟩) (st 0 0)) =
    some (.command (some ⟨false, 0x12, 6, 0x1234, ⟨1, 2, 3, 4⟩⟩)) := by decide
theorem test_frameCdec_seven_bytes : resultOf (exec (.frameCdec ⟨0x100, [0x12, 1, 2, 1, 0xD4, 0xC3, 0xB2]⟩) (st 0 0)) =
    some (.command none) := by decide
theorem test_reservedOp7 : step ((st 3 4).withFetchWord 8 7) =
    .next { st 3 4 with result := some (.error .illegalOp) } := rfl

/-! ### Frame rows -/

theorem test_writeBuffer : resultOf (step ((st 0 0).withFetchWord 64 0x12010201_D4C3B2A1)) =
    some (.command (some ⟨true, 0x12, 1, 0x0102, ⟨0xA1, 0xB2, 0xC3, 0xD4⟩⟩)) := by decide
theorem test_writePage : resultOf (step ((st 0 0).withFetchWord 64 0x12020000_08520A8B)) =
    some (.command (some ⟨true, 0x12, 2, 0, ⟨0x8B, 0x0A, 0x52, 0x08⟩⟩)) := by decide
theorem test_writeCrc : resultOf (exec (.writeCrc 0x12 2 ⟨0x86, 0xA2, 0xE8, 0x70⟩) (st 0 0)) =
    some (.command (some ⟨true, 0x12, 3, 2, ⟨0x86, 0xA2, 0xE8, 0x70⟩⟩)) := by decide
theorem test_ping : resultOf (exec (.ping 0xFF 0xFFFF ⟨9, 8, 7, 6⟩) (st 0 0)) =
    some (.command (some ⟨true, 0xFF, 4, 0xFFFF, ⟨9, 8, 7, 6⟩⟩)) := by decide
theorem test_setId : resultOf (step ((st 0 0).withFetchWord 64 0x00052A00_00000000)) =
    some (.command (some ⟨true, 0, 5, 0x002A, ⟨0, 0, 0, 0⟩⟩)) := by decide
theorem test_response : resultOf (step ((st 0 0).withFetchWord 24 0x070400)) =
    some (.response (some ⟨7, 4, 0⟩)) := by decide

/-! ### The step and reset -/

theorem test_reset_event : step (st 1 2 [.reset]) = .next (st 0xFFFFFFFF 0xFFFFFFFF) := rfl
theorem test_idle : step (st 1 2) = .next (st 1 2) := rfl
theorem test_first_after_reset : crcsOf (step (State.reset.withFetchWord 8 1)) = some (0xC704DD7B, 0xFFFFFFFF) := by decide +kernel
theorem test_long_frame_refused : step (st 1 2 [.busFrame .command (List.replicate 9 0)]) =
    .refused (.frameTooLong 9) := rfl

/-! ### The syntax of R56, on the examples of 41_frame_codec.md -/

theorem test_asm_encode : asmInstr cfg (.frameEncode 0x12 1 0x0102 [0xA1, 0xB2, 0xC3, 0xD4]) =
    some "frame.encode 12, WriteBuffer, 0102, A1 B2 C3 D4" := by decide +kernel
theorem test_asm_result : asmResult cfg (.frame ⟨0x100, [0x12, 0x01, 0x02, 0x01, 0xD4, 0xC3, 0xB2, 0xA1]⟩) =
    "id=CMD_ID len=8 data= 12 01 02 01 D4 C3 B2 A1" := by decide +kernel

/-! ### The environment, with pages of two words -/

theorem test_padding : padImage cfg [0xAB] = 0xAB :: List.replicate 1023 0 := by decide +kernel
theorem test_first_word : imageWord cfg [0xDE, 0xAD, 0xBE, 0xEF] 0 0 = ⟨0xEF, 0xBE, 0xAD, 0xDE⟩ := by decide
/-- Program P1: one page of two words; page and image digests agree and the digest travels reversed. -/
theorem test_flash_frames : (flash 0x12 [0x31, 0x32, 0x33, 0x34, 0x35, 0x36, 0x37, 0x38] 1 1 1 (fun _ => (0, ⟨0, 0, 0, 0⟩))
    (env [answer 4 0, answer 1 0, answer 1 0, answer 2 0, answer 3 0])).1.sent.map Frame.data =
      [[0x12, 4, 0, 0, 0, 0, 0, 0], [0x12, 1, 0, 0, 0x31, 0x32, 0x33, 0x34], [0x12, 1, 1, 0, 0x35, 0x36, 0x37, 0x38],
        [0x12, 2, 0, 0, 0xF9, 0x54, 0xFC, 0xFE], [0x12, 3, 1, 0, 0xF9, 0x54, 0xFC, 0xFE]] := by decide +kernel
/-- S8 in small: the second word is rejected on every attempt. -/
theorem test_flash_page_rejected : (flash 0x12 (List.replicate 8 0) 2 1 3 (fun _ => (0, ⟨0, 0, 0, 0⟩))
    (env [answer 4 0, answer 1 0, answer 1 1, answer 1 0, answer 1 1])).2 = .error (.pageWriteFailed 0) := by
  decide +kernel
/-- R104: a try whose send fails is spent, and `wait_for_connection` never raises. -/
theorem test_wait_failed_send :
    (waitForConnection 0x12 (fun _ => (0, ⟨0, 0, 0, 0⟩)) 2 (env [⟨false, []⟩, answer 4 0])).2 = true ∧
    (waitForConnection 0x12 (fun _ => (0, ⟨0, 0, 0, 0⟩)) 1 (env [⟨false, []⟩, answer 4 0])).2 = false := by decide +kernel
/-- R114: when the wait ends in false, also by failed sends, `flash` aborts with `ConnectionFailed` after `Ping` alone. -/
theorem test_flash_no_connection : (flash 0x12 [0xAB] 1 1 1 (fun _ => (0, ⟨0, 0, 0, 0⟩)) (env [⟨false, []⟩])).2 =
    .error .connectionFailed := by decide +kernel
/-- R118, R132 and conflict C8: a failed send of `WriteCrc` is `TransportError`, a rejection and a silent peer are
`VerificationFailed`. -/
theorem test_flash_writeCrc_failures :
    [⟨false, []⟩, answer 3 1, ⟨true, []⟩].map (fun last => (flash 0x12 [] 1 1 1 (fun _ => (0, ⟨0, 0, 0, 0⟩))
      (env [answer 4 0, last])).2) =
        [.error .transportError, .error .verificationFailed, .error .verificationFailed] := by decide +kernel
/-- R111: every responder of every try, once. -/
theorem test_discover : (discover (fun _ => (0, ⟨0, 0, 0, 0⟩)) 2 (env [
    ⟨true, [⟨0x200, [7, 4, 0]⟩, ⟨0x201, [9, 4, 1]⟩, ⟨0x200, [8, 1, 0]⟩]⟩, ⟨true, [⟨0x202, [7, 4, 0]⟩]⟩])).2 =
      .ok [7, 9] := by decide +kernel

/-! ### Witnesses: states and operands that meet the hypotheses of the statements -/

/-- A state of the invariant with something to do and a result. -/
def busy : State := ⟨1, 2, cfg, [.request { op := 1#3, w := [1, 2, 3, 4] }, .reset], some (.error (.badWordLength 3))⟩

theorem busy_inv : busy.Inv where
  consistent := cfg_consistent
  presentable := by decide
  resultLegal := by
    intro r hr
    cases hr
    show (3 : Nat) ≠ 4
    decide

theorem witness_StepKeepsInvariant : busy.Inv ∧ step busy =
    .next ((({ busy with inputs := [.reset] } : State).setCrc .page (crcWord cfg 1 [1, 2, 3, 4])).setResult .done) :=
  ⟨busy_inv, rfl⟩
theorem witness_InvariantStateAlwaysSteps : busy.Inv := busy_inv
theorem witness_StepRunsDecodedInstruction :
    (st 1 2 [.busFrame .command [0x12, 4, 0, 0, 0, 0, 0, 0]]).inputs = [.busFrame .command [0x12, 4, 0, 0, 0, 0, 0, 0]] ∧
    decode cfg (.busFrame .command [0x12, 4, 0, 0, 0, 0, 0, 0]) = .ok (.ping 0x12 0 ⟨0, 0, 0, 0⟩) ∧
    (Instr.ping 0x12 0 ⟨0, 0, 0, 0⟩).wf cfg = true := by decide
theorem witness_StepTakesOneInputAndKeepsConfiguration :
    step (st 1 2 [.reset, .reset]) = .next (st 0xFFFFFFFF 0xFFFFFFFF [.reset]) := rfl
theorem witness_OnlyOverlongFramesAreRefused_request :
    step (st 1 2 [.request { op := 5#3, rx := ⟨0, List.replicate 9 0⟩ }]) = .refused (.frameTooLong 9) := rfl
theorem witness_OnlyOverlongFramesAreRefused_busFrame :
    step (st 1 2 [.busFrame (.response 0) (List.replicate 9 0)]) = .refused (.frameTooLong 9) := rfl
theorem witness_ResetEventLoadsInit : (st 1 2 [.reset]).cfg.Standard ∧ (st 1 2 [.reset]).inputs = [.reset] :=
  ⟨cfg_standard, rfl⟩
theorem witness_IdleStepChangesNothing : (st 1 2).inputs = [] := rfl
/-- For every statement whose only hypothesis is the spec's parameters. -/
theorem witness_Standard : (st 1 2).cfg.Standard := cfg_standard
theorem witness_CrcUpdateRejectsOtherLengths : (st 1 2).cfg.Standard ∧ [1#8, 2#8, 3#8, 4#8, 5#8].length ≠ 4 :=
  ⟨cfg_standard, by decide⟩
theorem witness_CrcUpdateIsPolynomialRemainder : (st 1 2).cfg.Standard ∧
    exec (.crcUpdate .page (bytesOf ⟨1, 2, 3, 4⟩)) (st 1 2) =
      .next (((st 1 2).setCrc .page (crcWord cfg 1 [1, 2, 3, 4])).setResult .done) := ⟨cfg_standard, rfl⟩
theorem witness_CrcWordIsLinear : cfg.refin = false := rfl
theorem witness_OwnDigestClearsAccumulator : (st 0x12345678 2).cfg.Standard ∧
    exec (.crcDigest .page) (st 0x12345678 2) = .next ((st 0x12345678 2).setResult (.digest ⟨0x12, 0x34, 0x56, 0x78⟩)) :=
  ⟨cfg_standard, rfl⟩
theorem witness_AccumulatorFollowsItsOwnOperations : runSteps 2 (st 1 2 [.request { op := 0#3 }, .reset]) =
    .next (st 0xFFFFFFFF 0xFFFFFFFF) := rfl
theorem witness_EqualStreamsGiveEqualDigests :
    [Input.request { op := 0#3 }, .request { op := 1#3, k := .image, w := [1] }, .request { op := 1#3, w := [1, 2, 3, 4] }].filterMap
      (crcEvent .page) =
    [Input.request { op := 0#3, k := .image }, .request { op := 1#3, k := .image, w := [1, 2, 3, 4] }].filterMap
      (crcEvent .image) ∧ (st 1 2).getCrc .page = (st 3 1).getCrc .image := by decide
theorem witness_EqualStreamsGiveEqualDigests_run :
    crcsOf (runSteps 2 (st 3 1
      [.request { op := 0#3, k := .image }, .request { op := 1#3, k := .image, w := [1, 2, 3, 4] }])) =
      some (3, 0x793737CD) := by decide +kernel
theorem witness_EqualStreamsGiveEqualDigests_first_run :
    crcsOf (runSteps 3 (st 1 2 [.request { op := 0#3 }, .request { op := 1#3, k := .image, w := [1] },
      .request { op := 1#3, w := [1, 2, 3, 4] }])) = some (0x793737CD, 2) := by decide +kernel
theorem witness_OnlyCrcOperationsWriteAccumulators : exec (.crcInit .page) (st 1 2) =
    .next ((st 0xFFFFFFFF 2).setResult .done) := rfl
theorem witness_ErrorsLeaveNoTrace : exec (.frameMatch ⟨0, []⟩ 0 6) (st 1 2) =
    .next ((st 1 2).setResult (.error (.illegalCommand 6))) := rfl
theorem witness_EncodeRejectsBadParam2Length : (5#8 ∈ cfg.commandCodes) ∧ [1#8, 2#8, 3#8].length ≠ 4 := by decide
theorem witness_UnassignedCodesAreRefused : (st 1 2).cfg.Standard ∧ (6#8 = 0#8 ∨ 6#8 ≤ 6#8) := ⟨cfg_standard, by decide⟩
theorem witness_WireLayoutBothWays : (st 1 2).cfg.Standard ∧ 1#8 ≤ 5#8 ∧ 5#8 ≤ 5#8 := ⟨cfg_standard, by decide, by decide⟩
theorem witness_EncodeIsBijectiveOnLegalOperands : 1#8 ∈ (st 1 2).cfg.commandCodes := by decide
theorem witness_MatchAgreesWithRdec : (1#8 ∈ cfg.commandCodes) ∧
    exec (.frameMatch ⟨0x200, [7, 1, 0]⟩ 7 1) (st 1 2) = .next ((st 1 2).setResult (.matched (some 0))) ∧
    exec (.frameRdec ⟨0x200, [7, 1, 0]⟩) (st 1 2) = .next ((st 1 2).setResult (.response (some ⟨7, 1, 0⟩))) :=
  ⟨by decide, rfl, rfl⟩
theorem witness_OwnCommandFrameIsNoResponse : (st 1 2).cfg.Consistent ∧ (1#8 ∈ (st 1 2).cfg.commandCodes) ∧
    exec (.frameEncode 7 4 0 [1, 2, 3, 4]) (st 1 2) =
      .next ((st 1 2).setResult (.frame ⟨0x100, [7, 4, 0, 0, 4, 3, 2, 1]⟩)) := ⟨cfg_consistent, by decide, rfl⟩
theorem witness_CodecRoundTrips :
    exec (.frameEncode 7 4 9 (bytesOf ⟨1, 2, 3, 4⟩)) (st 1 2) =
      .next ((st 1 2).setResult (.frame ⟨0x100, [7, 4, 9, 0, 4, 3, 2, 1]⟩)) ∧
    exec (.frameCdec ⟨0x100, [7, 4, 9, 0, 4, 3, 2, 1]⟩) (st 1 2) =
      .next ((st 1 2).setResult (.command (some ⟨true, 7, 4, 9, ⟨1, 2, 3, 4⟩⟩))) := ⟨rfl, rfl⟩
theorem witness_StatusIsPassedThrough : (st 1 2).cfg.Standard ∧ 3 < (st 1 2).cfg.respIdCount ∧ 1#8 ≤ 5#8 ∧ 5#8 ≤ 5#8 :=
  ⟨cfg_standard, by decide, by decide, by decide⟩
theorem witness_StatusIsPassedThrough_identifier : (⟨0x204, [7, 1, 0]⟩ : Frame).id < cfg.respIdBase ∨
    cfg.respIdBase + cfg.respIdCount ≤ (⟨0x204, [7, 1, 0]⟩ : Frame).id := by decide
theorem witness_StatusIsPassedThrough_length : (⟨0x200, [7, 1]⟩ : Frame).data.length < 3 := by decide
theorem witness_StatusIsPassedThrough_board : (⟨0x200, [7, 1, 0]⟩ : Frame).data[0]? ≠ some 8 := by decide
theorem witness_StatusIsPassedThrough_code : (⟨0x200, [7, 1, 0]⟩ : Frame).data[1]? ≠ some 2 := by decide
theorem witness_EveryBusFrameIsDecoded_unassigned : step (st 1 2 [.busFrame .command [0x12, 6, 0x34, 0x12, 4, 3, 2, 1]]) =
    .next ((st 1 2).setResult (.command (some ⟨false, 0x12, 6, 0x1234, ⟨1, 2, 3, 4⟩⟩))) := rfl
theorem witness_EveryBusFrameIsDecoded_short : step (st 1 2 [.busFrame .command (List.replicate 7 0)]) =
    .next ((st 1 2).setResult (.command none)) := rfl
theorem witness_EveryBusFrameIsDecoded_response : step (st 1 2 [.busFrame (.response 0) [0, 0]]) =
    .next ((st 1 2).setResult (.response none)) := rfl
theorem witness_EveryBusFrameIsDecoded_fields : step (st 1 2 [.busFrame (.response 3) [7, 9, 1, 0, 0, 0, 0, 0]]) =
    .next ((st 1 2).setResult (.response (some ⟨7, 9, 1⟩))) := rfl
theorem witness_EveryBusFrameIsDecoded_outside_range : step (st 1 2 [.busFrame (.response 4) [7, 9, 1]]) =
    .next ((st 1 2).setResult (.response none)) := rfl
theorem witness_DecodeEncodeRoundTrip : cfg.Consistent ∧ (Instr.response 3 1 2 3 [4, 5, 6, 7, 8]).wf cfg = true :=
  ⟨cfg_consistent, by decide⟩
theorem witness_EncodeDecodeFrames : decode cfg (.busFrame .command [7, 5, 1, 2, 3, 4, 5, 6]) =
    .ok (.setId 7 0x0201 ⟨6, 5, 4, 3⟩) := by decide
theorem witness_WriteBufferCarriesImageOrder : cfg.Standard ∧ 1024 * 0 + 4 * 1 + 3 < (List.replicate 8 0#8).length :=
  ⟨cfg_standard, by decide⟩
/-- An environment around a block of the standard deployment. -/
def stdEnv (world : List Attempt) : Env := ⟨st 1 2, world, [], .idle⟩
theorem witness_SetAddressChecksTheRange_outside : (stdEnv []).block.cfg.Standard ∧ 254 < 255 :=
  ⟨cfg_standard, by decide⟩
theorem witness_SetAddressChecksTheRange_inside : (stdEnv []).block.cfg.Standard ∧ 254 ≤ 254 := ⟨cfg_standard, by decide⟩
theorem witness_PaddingAndWordStream : cfg.Standard ∧ 0 < pageCount cfg [0xAB#8].length := ⟨cfg_standard, by decide⟩
theorem witness_SetAddressAwaitsTheNewAddress :
    let frames : List Frame := [⟨0x200, [0, 5, 0]⟩]
    let e := stdEnv [⟨true, frames ++ [⟨0x200, [BitVec.ofNat 8 0x2A, 5#8, 0#8]⟩]⟩]
    e.block.cfg.Standard ∧ 0x2A ≤ 254 ∧ (∀ f ∈ frames, f.data[0]? ≠ some (BitVec.ofNat 8 0x2A)) ∧
      e.world = ⟨true, frames ++ [⟨e.block.cfg.respIdBase, [BitVec.ofNat 8 0x2A, 5#8, 0#8]⟩]⟩ :: [] ∧
      0 < e.block.cfg.respIdCount := ⟨cfg_standard, by decide, by decide, rfl, by decide⟩
theorem witness_SilentPeerYieldsNoReply :
    let e := stdEnv [⟨true, [⟨0x200, [0x13, 4, 0]⟩]⟩]
    ∀ a ∈ e.world.take 2, a.sendOk = true ∧
      ∀ f ∈ a.received, matchStatus e.block.cfg f 0x12 (Command.ping.code e.block.cfg) = none := by decide
theorem witness_RejectionIsNotRetried :
    let e := stdEnv [⟨true, [⟨0x200, [0x13, 1, 0]⟩] ++ ⟨0x200, [0x12, 1, 1]⟩ :: []⟩]
    e.world = ⟨true, [⟨0x200, [0x13, 1, 0]⟩] ++ ⟨0x200, [0x12, 1, 1]⟩ :: []⟩ :: [] ∧
    (⟨0x200, [0x12, 1, 1]⟩ : Frame).data.length ≤ e.block.cfg.rxMaxBytes ∧
    (∀ f ∈ [(⟨0x200, [0x13, 1, 0]⟩ : Frame)],
      matchStatus e.block.cfg f 0x12 (Command.writeBuffer.code e.block.cfg) = none) ∧
    matchStatus e.block.cfg ⟨0x200, [0x12, 1, 1]⟩ 0x12 (Command.writeBuffer.code e.block.cfg) = some 1 ∧
    (1 : Byte) ≠ e.block.cfg.statusOk := by decide
theorem witness_NoConnectionMeansNoPageTraffic :
    let e := stdEnv [⟨true, [⟨0x200, [0x13, 4, 0]⟩]⟩, ⟨false, [⟨0x200, [0x12, 4, 0]⟩]⟩]
    e.block.cfg.Standard ∧ [1#8, 2#8].length ≤ 65535 * 1024 ∧
    ∀ a ∈ e.world.take 2, a.sendOk = true → ∀ f ∈ a.received, matchStatus e.block.cfg f 0x12 4#8 = none :=
  ⟨cfg_standard, by decide, by decide⟩
/-- Two pages, the first sent twice because a word was rejected. -/
theorem witness_SuccessfulFlashCoversTheImageOnce : smallCfg.wordBytes = 4 ∧
    (flash 0x12 (List.replicate 12 0xAB) 2 1 1 (fun _ => (0, ⟨0, 0, 0, 0⟩))
      (env [answer 4 0, answer 1 0, answer 1 1, answer 1 0, answer 1 0, answer 2 0, answer 1 0, answer 1 0, answer 2 0,
        answer 3 0])).2 = .ok () := by decide +kernel

end Sys2Proof.Tests
end

