-- ==== Sys2Proof/Proofs/CommandCodec.lean ====
section
/-! PROOF. `FRAME.ENCODE` and `FRAME.CDEC` of legal operands (spec/41_frame_codec.md R75, R81), and O29: the payload layout
both ways (spec/20_memory.md R26, R27). -/

namespace Sys2Proof.Machine

/-- `FRAME.ENCODE` of an assigned code and a 4-byte `param2` completes with the command frame (R75). -/
theorem exec_frameEncode_of_mem {s : State} {cmd : Byte} (h : cmd ∈ s.cfg.commandCodes) (board : Byte) (param1 : Half)
    (param2 : Bytes4) : exec (.frameEncode board cmd param1 (bytesOf param2)) s =
      .next (s.setResult (.frame (commandFrame s.cfg board cmd param1 param2))) := by
  have hcode : isCommandCode s.cfg cmd = true := (isCommandCode_iff ..).mpr h
  simp [exec, execFrameEncode, hcode]

/-- The command decoder reads an encoded command frame back, and says whether its code is assigned (R77, R81). -/
theorem commandFields_commandFrame {c : Config} (h : c.frameBytes = 8) (board code : Byte) (param1 : Half)
    (param2 : Bytes4) : commandFields c (commandFrame c board code param1 param2) =
      some ⟨isCommandCode c code, board, code, param1, param2⟩ := by
  simp [commandFields, commandFrame, Frame.len, h, commandPayload, bytesOf, rev4]

/-- `FRAME.CDEC` of the frame of an assigned code completes with the operands that `FRAME.ENCODE` was given (R82). -/
theorem exec_frameCdec_commandFrame {s : State} {cmd : Byte} (h : s.cfg.frameBytes = 8) (hcmd : cmd ∈ s.cfg.commandCodes)
    (board : Byte) (param1 : Half) (param2 : Bytes4) :
    exec (.frameCdec (commandFrame s.cfg board cmd param1 param2)) s =
      .next (s.setResult (.command (some ⟨true, board, cmd, param1, param2⟩))) := by
  have hcode : isCommandCode s.cfg cmd = true := (isCommandCode_iff ..).mpr hcmd
  simp [exec, execFrameCdec, commandFields_commandFrame h, hcode]

/-- With the spec's parameters the assigned codes are the bytes from 1 to 5 (R44). -/
theorem Standard.mem_commandCodes {c : Config} (h : c.Standard) {x : Byte} :
    x ∈ c.commandCodes ↔ 1#8 ≤ x ∧ x ≤ 5#8 := by
  simp only [Standard.commandCodes h, List.mem_cons, List.not_mem_nil, or_false]
  bv_omega

end Sys2Proof.Machine

open Sys2Proof Sys2Proof.Machine

/-- Settles O29: the encoder's payload is the layout of R40, and the decoder reads the operands back from it. -/
theorem wireLayoutBothWays : Obligations.WireLayoutBothWays := by
  intro s board cmd param1 p0 p1 p2 p3 hstd hlo hhi
  have hmem : cmd ∈ s.cfg.commandCodes := (Standard.mem_commandCodes hstd).mpr ⟨hlo, hhi⟩
  exact ⟨exec_frameEncode_of_mem hmem board param1 ⟨p0, p1, p2, p3⟩,
    exec_frameCdec_commandFrame hstd.frameBytes hmem board param1 ⟨p0, p1, p2, p3⟩⟩

end

