-- ==== Sys2Proof/Proofs/ImagePages.lean ====
section
/-! PROOF. The padded image and its pages (spec/45_host_sequences.md R112, R113; spec/20_memory.md R31), and O47. -/

namespace Sys2Proof.Environment

open Machine

/-- The whole image fits in the padded length (R112). -/
theorem le_paddedLength {c : Config} (h : 0 < c.pageBytes) (len : Nat) : len ≤ paddedLength c len := by
  have := Nat.lt_mul_div_succ (len + c.pageBytes - 1) h
  rw [Nat.mul_add_one, Nat.mul_comm] at this
  unfold paddedLength pageCount
  omega

/-- The padding is shorter than a page (R112). -/
theorem paddedLength_lt {c : Config} (h : 0 < c.pageBytes) (len : Nat) : paddedLength c len < len + c.pageBytes := by
  have : paddedLength c len ≤ len + c.pageBytes - 1 := Nat.div_mul_le_self ..
  omega

theorem length_padImage {c : Config} (h : 0 < c.pageBytes) (image : List Byte) :
    (padImage c image).length = paddedLength c image.length := by
  simp [padImage, le_paddedLength h]

/-- The padded image is the image's bytes, then zeros up to the padded length (R112). -/
theorem getElem?_padImage (c : Config) (image : List Byte) (i : Nat) :
    (padImage c image)[i]? =
      if i < image.length then image[i]? else if i < paddedLength c image.length then some 0#8 else none := by
  unfold padImage
  split
  case isTrue h => exact List.getElem?_append_left h
  case isFalse h =>
    rw [List.getElem?_append_right (Nat.le_of_not_lt h), List.getElem?_replicate]
    exact if_congr (by omega) rfl rfl

@[simp] theorem length_pageWords (c : Config) (padded : List Byte) (p : Nat) :
    (pageWords c padded p).length = c.wordsPerPage := by
  simp [pageWords]

/-- Word `j` of a page's stream is `W(p, j)` (R113). -/
theorem getElem?_pageWords {c : Config} {j : Nat} (h : j < c.wordsPerPage) (padded : List Byte) (p : Nat) :
    (pageWords c padded p)[j]? = some (imageWord c padded p j) := by
  simp [pageWords, h]

/-- `W(p, j)` is the 4 bytes at its address in reverse order, where the padded image holds them all (R31, R113). -/
theorem bytesOf_imageWord {c : Config} {padded : List Byte} {p j a : Nat} (ha : c.pageBytes * p + c.wordBytes * j = a)
    (h : a + 3 < padded.length) : ∃ b0 b1 b2 b3, bytesOf (imageWord c padded p j) = [b3, b2, b1, b0] ∧
      padded[a]? = some b0 ∧ padded[a + 1]? = some b1 ∧ padded[a + 2]? = some b2 ∧ padded[a + 3]? = some b3 := by
  subst ha
  have read {i : Nat} (hi : i < padded.length) : padded[i]? = some (padded.getD i 0#8) := by simp [hi]
  exact ⟨_, _, _, _, rfl, read (by omega), read (by omega), read (by omega), read h⟩

end Sys2Proof.Environment

open Sys2Proof Sys2Proof.Environment

/-- Settles O47: the padded length by division, and every word of a page inside the padded image. -/
theorem paddingAndWordStream : Obligations.PaddingAndWordStream := by
  intro c image hstd
  have hpage : c.pageBytes = 1024 := hstd.pageBytes
  have hpos : 0 < c.pageBytes := by omega
  have hpadded : paddedLength c image.length = pageCount c image.length * 1024 := by rw [paddedLength, hpage]
  have hlen : (padImage c image).length = pageCount c image.length * 1024 := (length_padImage hpos image).trans hpadded
  have hle : image.length ≤ pageCount c image.length * 1024 := hpadded ▸ le_paddedLength hpos image.length
  have hlt : pageCount c image.length * 1024 < image.length + 1024 := by
    have := paddedLength_lt hpos image.length
    omega
  refine ⟨hlen, hle, hlt, fun i => hpadded ▸ getElem?_padImage c image i, fun p hp => ⟨?_, fun j hj => ?_⟩⟩
  · rw [length_pageWords, hstd.wordsPerPage]
  · have haddr : c.pageBytes * p + c.wordBytes * j = 1024 * p + 4 * j := by rw [hpage, hstd.wordBytes]
    obtain ⟨b0, b1, b2, b3, hbytes⟩ := bytesOf_imageWord haddr (padded := padImage c image) (by omega)
    exact ⟨_, b0, b1, b2, b3, getElem?_pageWords (hstd.wordsPerPage ▸ hj) _ p, hbytes⟩

end

