-- ==== Sys2Proof/Proofs/CodecResults.lean ====
section
/-! PROOF. What each frame operation delivers, as a function of the configuration and the operands (spec/41_frame_codec.md
R75 to R81), and O37: no state goes into it (R83). -/

namespace Sys2Proof.Machine

/-- The result of `FRAME.ENCODE`: the code is tested before the length (R75, R131). -/
def encodeResult (c : Config) (board cmd : Byte) (param1 : Half) (param2 : List Byte) : Result :=
  if isCommandCode c cmd then
    match bytes4? param2 with
    | some p2 => .frame (commandFrame c board cmd param1 p2)
    | none => .error (.badParam2Length param2.length)
  else .error (.illegalCommand cmd)

/-- The result of `FRAME.MATCH` (R78, R79). -/
def matchResult (c : Config) (rx : Frame) (expBoard expCmd : Byte) : Result :=
  if isCommandCode c expCmd then .matched (matchStatus c rx expBoard expCmd) else .error (.illegalCommand expCmd)

theorem exec_frameEncode_eq (board cmd : Byte) (param1 : Half) (param2 : List Byte) (s : State) :
    exec (.frameEncode board cmd param1 param2) s =
      .next (s.setResult (encodeResult s.cfg board cmd param1 param2)) := by
  simp only [exec, execFrameEncode, encodeResult]
  split
  case isTrue => cases bytes4? param2 <;> rfl
  case isFalse => rfl

theorem exec_frameMatch_eq (rx : Frame) (expBoard expCmd : Byte) (s : State) :
    exec (.frameMatch rx expBoard expCmd) s = .next (s.setResult (matchResult s.cfg rx expBoard expCmd)) := by
  simp only [exec, execFrameMatch, matchResult]
  split <;> rfl

theorem exec_frameRdec_eq (rx : Frame) (s : State) :
    exec (.frameRdec rx) s = .next (s.setResult (.response (responseFields s.cfg rx))) :=
  decodeAsResponse_eq rx s

theorem exec_frameCdec_eq (rx : Frame) (s : State) :
    exec (.frameCdec rx) s = .next (s.setResult (.command (commandFields s.cfg rx))) :=
  decodeAsCommand_eq rx s

end Sys2Proof.Machine

open Sys2Proof Sys2Proof.Machine

/-- Settles O37: each frame operation delivers its result as a function of the configuration, and of nothing else in the
state. -/
theorem codecIsPure : Obligations.CodecIsPure := by
  rintro i (⟨board, cmd, param1, param2, rfl⟩ | ⟨rx, board, cmd, rfl⟩ | ⟨rx, rfl⟩ | ⟨rx, rfl⟩) c
  · exact ⟨encodeResult c board cmd param1 param2, fun s hs => hs ▸ exec_frameEncode_eq board cmd param1 param2 s⟩
  · exact ⟨matchResult c rx board cmd, fun s hs => hs ▸ exec_frameMatch_eq rx board cmd s⟩
  · exact ⟨.response (responseFields c rx), fun s hs => hs ▸ exec_frameRdec_eq rx s⟩
  · exact ⟨.command (commandFields c rx), fun s hs => hs ▸ exec_frameCdec_eq rx s⟩

end

