-- ==== Sys2Proof/Proofs/EncoderLength.lean ====
section
/-! PROOF. The encoder's length check (spec/60_exceptions.md R126), and O27. -/

namespace Sys2Proof.Machine

/-- With an assigned code, what the encoder delivers for a `param2` that is not 4 bytes is the length error (R126). -/
theorem encodeResult_of_length_ne {c : Config} {cmd : Byte} {param2 : List Byte} (hcmd : cmd ∈ c.commandCodes)
    (hlen : param2.length ≠ 4) (board : Byte) (param1 : Half) :
    encodeResult c board cmd param1 param2 = .error (.badParam2Length param2.length) := by
  have hcode : isCommandCode c cmd = true := (isCommandCode_iff ..).mpr hcmd
  have hbytes : bytes4? param2 = none := bytes4?_eq_none.mpr hlen
  simp [encodeResult, hcode, hbytes]

end Sys2Proof.Machine

open Sys2Proof Sys2Proof.Machine

/-- Settles O27: the encoder writes only its result, and with an assigned code that result is the length error. -/
theorem encodeRejectsBadParam2Length : Obligations.EncodeRejectsBadParam2Length := by
  intro s board cmd param1 param2 hcmd hlen
  rw [exec_frameEncode_eq, encodeResult_of_length_ne hcmd hlen]
  rfl

end

