-- ==== Sys2Proof/Proofs/LegalResults.lean ====
section
/-! PROOF. Every result the block delivers is legal (spec/30_encoding.md R51), and what one input and one step can do to
the state: O3, the invariant, and with it O6, that a step takes one input and writes no configuration. -/

namespace Sys2Proof.Machine

/-- What the encoder delivers is a command frame with an assigned code, or an error with a real defect (R75, R126,
R128). -/
theorem encodeResult_legal (c : Config) (board cmd : Byte) (param1 : Half) (param2 : List Byte) :
    (encodeResult c board cmd param1 param2).Legal c := by
  unfold encodeResult
  split
  case isTrue hcmd =>
    have hmem : cmd ∈ c.commandCodes := (isCommandCode_iff ..).mp hcmd
    cases hp : bytes4? param2 with
    | some p2 => exact ⟨rfl, _, _, _, _, _, _, _, _, rfl, hmem⟩
    | none => exact bytes4?_eq_none.mp hp
  case isFalse hcmd => exact fun hmem => hcmd ((isCommandCode_iff ..).mpr hmem)

theorem matchResult_legal (c : Config) (rx : Frame) (expBoard expCmd : Byte) :
    (matchResult c rx expBoard expCmd).Legal c := by
  unfold matchResult
  split
  case isTrue => trivial
  case isFalse hcmd => exact fun hmem => hcmd ((isCommandCode_iff ..).mpr hmem)

/-- A decoded command's `known` bit says whether its code is assigned (R81). -/
theorem commandFields_known {c : Config} {rx : Frame} {f : CommandFields} (h : commandFields c rx = some f) :
    f.known = true ↔ f.code ∈ c.commandCodes := by
  unfold commandFields at h
  split at h
  · split at h
    · cases h; exact isCommandCode_iff ..
    · cases h
  · cases h

theorem commandResult_legal (c : Config) (rx : Frame) : (Result.command (commandFields c rx)).Legal c := by
  cases h : commandFields c rx with
  | none => trivial
  | some f => exact commandFields_known h

/-- `CRC.UPDATE k` of a whole word writes `CRC[k]` (R63). -/
theorem exec_crcUpdate_of_length {s : State} {w : List Byte} (h : w.length = s.cfg.wordBytes) (k : Acc) :
    exec (.crcUpdate k w) s = .next ((s.setCrc k (crcWord s.cfg (s.getCrc k) w)).setResult .done) := by
  simp [exec, execCrcUpdate, h]

/-- `CRC.UPDATE k` of any other word delivers the length error (R127). -/
theorem exec_crcUpdate_of_length_ne {s : State} {w : List Byte} (h : w.length ≠ s.cfg.wordBytes) (k : Acc) :
    exec (.crcUpdate k w) s = .next (s.setResult (.error (.badWordLength w.length))) := by
  simp [exec, execCrcUpdate, h]

/-- Every instruction goes on and delivers a legal result; the configuration and the inputs are as they were. -/
theorem exec_delivers_legal (i : Instr) (s : State) :
    ∃ (u : State) (r : Result),
      exec i s = .next (u.setResult r) ∧ u.cfg = s.cfg ∧ u.inputs = s.inputs ∧ r.Legal s.cfg := by
  cases i with
  | crcInit k => exact ⟨s.setCrc k s.cfg.init, .done, rfl, setCrc_cfg .., setCrc_inputs .., trivial⟩
  | crcUpdate k w =>
    by_cases h : w.length = s.cfg.wordBytes
    · exact ⟨_, _, exec_crcUpdate_of_length h k, setCrc_cfg .., setCrc_inputs .., trivial⟩
    · exact ⟨s, _, exec_crcUpdate_of_length_ne h k, rfl, rfl, h⟩
  | frameEncode => exact ⟨s, _, exec_frameEncode_eq .., rfl, rfl, encodeResult_legal ..⟩
  | frameMatch => exact ⟨s, _, exec_frameMatch_eq .., rfl, rfl, matchResult_legal ..⟩
  | crcDigest | frameRdec | reservedOp7 | response => exact ⟨s, _, rfl, rfl, rfl, trivial⟩
  | frameCdec | writeBuffer | writePage | writeCrc | ping | setId =>
    exact ⟨s, _, rfl, rfl, rfl, commandResult_legal ..⟩

/-- A frame off the bus is what `FRAME.CDEC` or `FRAME.RDEC` makes of it (R55). -/
theorem decodeBusFrame_eq_exec (ch : Channel) (data : List Byte) (s : State) :
    ∃ i, decodeBusFrame ch data s = exec i s := by
  cases ch with
  | command => exact ⟨.frameCdec (channelFrame s.cfg .command data), rfl⟩
  | response n => exact ⟨.frameRdec (channelFrame s.cfg (.response n) data), rfl⟩

/-- An input on which the block goes on is reset, or is performed as one instruction. -/
theorem present_next {x : Input} {s t : State} (h : present x s = .next t) :
    (x = .reset ∧ t = applyReset s) ∨ ∃ i, exec i s = .next t := by
  cases x with
  | reset => cases h; exact .inl ⟨rfl, rfl⟩
  | request q =>
    obtain ⟨-, hrun⟩ | ⟨-, hrun⟩ := execIfFits_cases (decodeRequest q) s
    · exact .inr ⟨_, hrun.symm.trans h⟩
    · cases hrun.symm.trans h
  | busFrame ch data =>
    simp only [present] at h
    split at h
    · rename_i i _
      obtain ⟨-, hrun⟩ | ⟨-, hrun⟩ := execIfFits_cases i s
      · exact .inr ⟨_, hrun.symm.trans h⟩
      · cases hrun.symm.trans h
    · split at h
      · obtain ⟨i, hi⟩ := decodeBusFrame_eq_exec ch data s
        exact .inr ⟨i, hi.symm.trans h⟩
      · cases h

/-- What every performed input leaves: the configuration, the inputs behind it, and a legal result if any. -/
theorem present_keeps {x : Input} {s t : State} (h : present x s = .next t) :
    t.cfg = s.cfg ∧ t.inputs = s.inputs ∧ ∀ r, t.result = some r → r.Legal s.cfg := by
  obtain ⟨-, rfl⟩ | ⟨i, hi⟩ := present_next h
  · exact ⟨rfl, rfl, fun r hr => by cases hr⟩
  · obtain ⟨u, r, hu, hcfg, hinputs, hlegal⟩ := exec_delivers_legal i s
    cases hi.symm.trans hu
    exact ⟨hcfg, hinputs, fun r' hr' => by cases hr'; exact hlegal⟩

/-- A step that goes on waited for an input, or performed the oldest. -/
theorem step_next {s t : State} (h : step s = .next t) :
    (s.inputs = [] ∧ t = s) ∨ ∃ x rest, s.inputs = x :: rest ∧ present x (s.setInputs rest) = .next t := by
  obtain ⟨hnil, hstep⟩ | ⟨x, rest, hcons, hstep⟩ := step_cases s
  · cases hstep.symm.trans h; exact .inl ⟨hnil, rfl⟩
  · exact .inr ⟨x, rest, hcons, hstep.symm.trans h⟩

end Sys2Proof.Machine

open Sys2Proof Sys2Proof.Machine

/-- Settles O3: a performed input leaves the configuration, leaves a part of the presentable inputs, and delivers only a
legal result. -/
theorem stepKeepsInvariant : Obligations.StepKeepsInvariant := by
  intro s t hinv hstep
  obtain ⟨-, rfl⟩ | ⟨x, rest, hcons, hx⟩ := step_next hstep
  · exact hinv
  · obtain ⟨hcfg, hinputs, hlegal⟩ := present_keeps hx
    simp only [setInputs_cfg] at hcfg hlegal
    refine ⟨hcfg ▸ hinv.consistent, fun y hy => ?_, hcfg ▸ hlegal⟩
    rw [hinputs, setInputs_inputs] at hy
    rw [hcfg]
    exact hinv.presentable y (hcons ▸ List.mem_cons_of_mem x hy)

/-- Settles O6: a performed input writes neither the configuration nor the inputs behind it. -/
theorem stepTakesOneInputAndKeepsConfiguration : Obligations.StepTakesOneInputAndKeepsConfiguration := by
  intro s t hstep
  obtain ⟨hnil, rfl⟩ | ⟨x, rest, hcons, hx⟩ := step_next hstep
  · exact ⟨by rw [hnil]; rfl, rfl⟩
  · obtain ⟨hcfg, hinputs, -⟩ := present_keeps hx
    exact ⟨by rw [hinputs, hcons]; rfl, hcfg⟩

end

