-- ==== Sys2Proof/Proofs/Presentable.lean ====
section
/-! PROOF. When a step refuses (spec/30_encoding.md R54; log 7), as a fact about the length of the frame an input
carries: O7, and from it O4 and O5; the steps on no input and on reset (O9, O8); and the reset state (O1, O2). -/

namespace Sys2Proof.Machine

/-- The length of the frame that performing an input reads; 0 if it reads none (R51, R54). -/
def Input.frameLen : Input → Nat
  | .request r => (decodeRequest r).frameLen
  | .busFrame _ data => data.length
  | .reset => 0

/-- An instruction is refused exactly for its length. -/
theorem execIfFits_eq_refused {i : Instr} {s : State} {r : Refusal} :
    execIfFits i s = .refused r ↔ s.cfg.rxMaxBytes < i.frameLen ∧ r = .frameTooLong i.frameLen := by
  obtain ⟨hle, h⟩ | ⟨hlt, h⟩ := execIfFits_cases i s <;> rw [h]
  · obtain ⟨t, ht⟩ := exec_next i s
    simp [ht, Nat.not_lt.mpr hle]
  · simp [hlt, eq_comm]

/-- An input is refused exactly for the length of its frame, and that length is named (R54). -/
theorem present_eq_refused {x : Input} {s : State} {r : Refusal} :
    present x s = .refused r ↔ s.cfg.rxMaxBytes < x.frameLen ∧ r = .frameTooLong x.frameLen := by
  cases x with
  | reset => simp [present, Input.frameLen]
  | request q => exact execIfFits_eq_refused
  | busFrame ch data =>
    simp only [present, Input.frameLen]
    split
    · rename_i i hi
      rw [execIfFits_eq_refused, frameLen_of_decode hi]
    · obtain ⟨r', hr'⟩ := decodeBusFrame_next ch data s
      split
      case isTrue hle => simp [hr', Nat.not_lt.mpr hle]
      case isFalse hgt => simp [Nat.not_le.mp hgt, eq_comm]

theorem frameLen_le_of_wf {c : Config} {x : Input} (h : x.wf c = true) : x.frameLen ≤ c.rxMaxBytes := by
  cases x with
  | reset => exact Nat.zero_le _
  | request q =>
    simp only [Input.frameLen, frameLen_decodeRequest]
    split
    case isTrue hop =>
      have hrx : q.rx.wf c = true := by
        obtain hop | hop | hop := hop <;> simpa [Input.wf, hop] using h
      simp only [Frame.wf, Bool.and_eq_true, decide_eq_true_eq] at hrx
      exact hrx.1
    case isFalse => exact Nat.zero_le _
  | busFrame ch data =>
    simp only [Input.wf, Bool.and_eq_true, decide_eq_true_eq] at h
    exact h.2

/-- An input that stands for an instruction is performed as that instruction. -/
theorem present_of_decode {x : Input} {s : State} {i : Instr} (h : decode s.cfg x = .ok i) :
    present x s = execIfFits i s := by
  cases x with
  | reset => cases h
  | request q => cases h; rfl
  | busFrame ch data => simp only [present, h]

/-- No step faults: the type of faults is empty (R125). -/
theorem step_next_or_refused (s : State) : (∃ t, step s = .next t) ∨ ∃ r, step s = .refused r := by
  cases h : step s with
  | next t => exact .inl ⟨t, rfl⟩
  | fault r => cases r
  | refused r => exact .inr ⟨r, rfl⟩

/-- A step refuses exactly when the oldest input's frame is too long to be presented (R54). -/
theorem step_eq_refused {s : State} {r : Refusal} :
    step s = .refused r ↔
      ∃ x rest, s.inputs = x :: rest ∧ s.cfg.rxMaxBytes < x.frameLen ∧ r = .frameTooLong x.frameLen := by
  obtain ⟨hnil, hstep⟩ | ⟨x, rest, hcons, hstep⟩ := step_cases s
  · simp [hnil, hstep]
  · rw [hstep, present_eq_refused]
    simp [hcons]

/-- The deployment's `ID_WIDTH` holds all identifiers up to the greater of `CMD_ID` and the last response identifier. -/
theorem lt_two_pow_openIdWidth {n : Nat} (h : n ≤ max Config.openCmdId Config.openRespIdLast) :
    n < 2 ^ Config.openIdWidth :=
  h.trans_lt (Nat.lt_log2_self.trans_le (Nat.pow_le_pow_right two_pos (Nat.le_add_right ..)))

/-- The OPEN identifiers at reset meet R8 (log 4): `CMD_ID` is outside the recognised range, and both fit `ID_WIDTH`. -/
theorem deployment_consistent : Config.deployment.Consistent where
  pageIsWholeWords := rfl
  polyFullHasTopBit := by decide
  codesDistinct := by decide
  responseFits := by decide
  commandFits := by decide
  respIdsNonempty := Nat.succ_pos _
  cmdIdNotRecognised := by
    simp only [Config.deployment, Config.openCmdId]
    split <;> omega
  cmdIdFits := lt_two_pow_openIdWidth (le_max_left ..)
  respIdsFit := lt_two_pow_openIdWidth (le_max_right ..)

theorem deployment_standard : Config.deployment.Standard := by constructor <;> rfl

end Sys2Proof.Machine

open Sys2Proof Sys2Proof.Machine

/-- Settles O7: the length an input's frame has, spelled out for each kind of input. -/
theorem onlyOverlongFramesAreRefused : Obligations.OnlyOverlongFramesAreRefused := by
  intro s r
  rw [step_eq_refused]
  refine exists₂_congr fun x rest => and_congr_right fun _ => ?_
  cases x with
  | reset => simp [Input.frameLen]
  | busFrame ch data =>
    constructor
    · rintro ⟨hlt, hr⟩
      exact ⟨_, hlt, hr, rfl⟩
    · rintro ⟨n, hlt, hr, rfl⟩
      exact ⟨hlt, hr⟩
  | request q =>
    simp only [Input.frameLen, frameLen_decodeRequest]
    split
    case isTrue hop =>
      constructor
      · rintro ⟨hlt, hr⟩
        exact ⟨_, hlt, hr, hop, rfl⟩
      · rintro ⟨n, hlt, hr, -, rfl⟩
        exact ⟨hlt, hr⟩
    case isFalse hop => simp [hop]

/-- Settles O4: a presentable input is not refused, and there is no fault. -/
theorem invariantStateAlwaysSteps : Obligations.InvariantStateAlwaysSteps := by
  intro s hinv
  obtain hnext | ⟨r, hr⟩ := step_next_or_refused s
  · exact hnext
  · obtain ⟨x, rest, hcons, hlt, -⟩ := step_eq_refused.mp hr
    have hwf : x.wf s.cfg = true := hinv.presentable x (hcons ▸ List.mem_cons_self)
    exact absurd (frameLen_le_of_wf hwf) (Nat.not_le.mpr hlt)

/-- Settles O5: the frame of a well-formed instruction can be presented. -/
theorem stepRunsDecodedInstruction : Obligations.StepRunsDecodedInstruction := by
  intro s x rest i hcons hdec hwf
  have hfits : i.fits s.cfg = true := Instr.fits_of_wf hwf
  calc step s = present x (s.setInputs rest) := by simp only [step, hcons]
    _ = execIfFits i (s.setInputs rest) := present_of_decode hdec
    _ = exec i (s.setInputs rest) := by simp [execIfFits, hfits]

/-- Settles O8: presenting reset loads `INIT`, whose value the spec's parameters give. -/
theorem resetEventLoadsInit : Obligations.ResetEventLoadsInit := by
  intro s rest hstd hcons
  obtain ⟨hnil, -⟩ | ⟨x, rest', hcons', hstep⟩ := step_cases s
  · cases hnil.symm.trans hcons
  · cases hcons'.symm.trans hcons
    rw [hstep]
    simp [present, applyReset, hstd.init, State.setInputs]

/-- Settles O9: there is nothing to take. -/
theorem idleStepChangesNothing : Obligations.IdleStepChangesNothing := by
  intro s hnil
  simp [step, hnil]

/-- Settles O1: `INIT` of the deployment is the spec's value. -/
theorem resetAccumulatorsHoldInit : Obligations.ResetAccumulatorsHoldInit :=
  ⟨deployment_standard.init, deployment_standard.init, rfl, rfl⟩

/-- Settles O2: the deployment is consistent, and nothing is presented or delivered yet. -/
theorem resetMeetsInvariant : Obligations.ResetMeetsInvariant := by
  refine ⟨⟨deployment_consistent, ?_, ?_⟩, deployment_standard⟩
  · intro x hx; cases hx
  · intro r hr; cases hr

end

