-- ==== Sys2Proof/Proofs/DecodeEncode.lean ====
section
/-! PROOF. Decoding and encoding (spec/30_encoding.md R40, R42 to R48): the round trips O43 and O44, the command map
over the payload value O45, and O46. -/

namespace Sys2Proof.Machine

open Reference

/-- The five commands, in the order of their numbers (R44). -/
def allCommands : List Command := [.writeBuffer, .writePage, .writeCrc, .ping, .setId]

theorem mem_allCommands (cmd : Command) : cmd ∈ allCommands := by cases cmd <;> decide

theorem commandCodes_eq_map (c : Config) : c.commandCodes = allCommands.map (Command.code c) := rfl

/-- The assigned codes are the commands' codes (R44). -/
theorem mem_commandCodes_iff {c : Config} {x : Byte} : x ∈ c.commandCodes ↔ ∃ cmd, Command.code c cmd = x := by
  simp [commandCodes_eq_map, mem_allCommands]

/-- Distinct codes tell the commands apart (R8, R44). -/
theorem code_injective {c : Config} (h : c.commandCodes.Nodup) : Function.Injective (Command.code c) :=
  fun x y hxy => List.inj_on_of_nodup_map (commandCodes_eq_map c ▸ h) (mem_allCommands x) (mem_allCommands y) hxy

/-- The payload of a command's code is decoded to the command's row (R44, R47). -/
theorem decodeCommand_commandPayload {c : Config} (h : c.commandCodes.Nodup) (cmd : Command) (a : Byte) (p : Half)
    (q : Bytes4) : decodeCommand c (commandPayload a (cmd.code c) p q) = .ok (commandInstr cmd a p q) := by
  have test (x : Command) : cmd.code c = x.code c ↔ cmd = x := (code_injective h).eq_iff
  change (if cmd.code c = Command.code c .writeBuffer then _ else if cmd.code c = Command.code c .writePage then _ else
    if cmd.code c = Command.code c .writeCrc then _ else if cmd.code c = Command.code c .ping then _ else
    if cmd.code c = Command.code c .setId then _ else _) = _
  simp only [test, le16_lowByte_highByte]
  cases cmd <;> rfl

/-- The encoder presents a command's row as the payload of the command's code (R47). -/
theorem encode_commandInstr (c : Config) (cmd : Command) (a : Byte) (p : Half) (q : Bytes4) :
    encode c (commandInstr cmd a p q) = .busFrame .command (commandPayload a (cmd.code c) p q) := by
  cases cmd <;> rfl

theorem decode_encode_commandInstr {c : Config} (h : c.commandCodes.Nodup) (cmd : Command) (a : Byte) (p : Half)
    (q : Bytes4) : decode c (encode c (commandInstr cmd a p q)) = .ok (commandInstr cmd a p q) := by
  rw [encode_commandInstr]
  exact decodeCommand_commandPayload h cmd a p q

/-- A command frame that decodes is the payload of a command's code, and decodes to that command's row. -/
theorem exists_command_of_decodeCommand {c : Config} {data : List Byte} {i : Instr} (h : decodeCommand c data = .ok i) :
    ∃ cmd a p q, data = commandPayload a (Command.code c cmd) p q ∧ i = commandInstr cmd a p q := by
  obtain ⟨a, code, p, q, rfl, ⟨rfl, rfl⟩ | ⟨rfl, rfl⟩ | ⟨rfl, rfl⟩ | ⟨rfl, rfl⟩ | ⟨rfl, rfl⟩⟩ := decodeCommand_ok h
  · exact ⟨.writeBuffer, a, p, q, rfl, rfl⟩
  · exact ⟨.writePage, a, p, q, rfl, rfl⟩
  · exact ⟨.writeCrc, a, p, q, rfl, rfl⟩
  · exact ⟨.ping, a, p, q, rfl, rfl⟩
  · exact ⟨.setId, a, p, q, rfl, rfl⟩

/-- Every payload of 8 bytes is the layout of R40 for its own bytes. -/
theorem commandPayload_of_bytes (a code l h d4 d5 d6 d7 : Byte) :
    commandPayload a code (le16 l h) ⟨d7, d6, d5, d4⟩ = [a, code, l, h, d4, d5, d6, d7] := by
  simp [commandPayload, bytesOf, rev4]

/-- R42: byte `n` of the payload, counted from the last, is the bits of the payload value from `8 n` on. -/
theorem payloadOfNat_eq (P : BitVec 64) : payloadOfNat 8 P.toNat =
    [P.extractLsb' 56 8, P.extractLsb' 48 8, P.extractLsb' 40 8, P.extractLsb' 32 8,
      P.extractLsb' 24 8, P.extractLsb' 16 8, P.extractLsb' 8 8, P.extractLsb' 0 8] := rfl

/-- A payload value is decoded as the command payload with the address, code and parameters at the bits R42 names. -/
theorem decodeTableWord_payloadValue (P : BitVec 64) : decodeTableWord 64 P.toNat =
    (decodeCommand Config.deployment (commandPayload (P.extractLsb' 56 8) (P.extractLsb' 48 8)
      (P.extractLsb' 32 8 ++ P.extractLsb' 40 8)
      ⟨P.extractLsb' 0 8, P.extractLsb' 8 8, P.extractLsb' 16 8, P.extractLsb' 24 8⟩)).toOption := by
  rw [← le16, commandPayload_of_bytes, ← payloadOfNat_eq]
  rfl

/-- A command payload decodes exactly when its code is assigned (R44, R54). -/
theorem isSome_decodeCommand {c : Config} (h : c.commandCodes.Nodup) (a code : Byte) (p : Half) (q : Bytes4) :
    (decodeCommand c (commandPayload a code p q)).toOption.isSome = true ↔ code ∈ c.commandCodes := by
  rw [mem_commandCodes_iff]
  constructor
  · intro hsome
    cases hdec : decodeCommand c (commandPayload a code p q) with
    | error e => rw [hdec] at hsome; cases hsome
    | ok i =>
      obtain ⟨cmd, a', p', q', hdata, -⟩ := exists_command_of_decodeCommand hdec
      exact ⟨cmd, Option.some.inj (congrArg (·[1]?) hdata.symm)⟩
  · rintro ⟨cmd, rfl⟩
    rw [decodeCommand_commandPayload h]
    rfl

end Sys2Proof.Machine

open Sys2Proof Sys2Proof.Machine Sys2Proof.Reference

/-- Settles O43: a request gives its fields back, a response its layout, and a command the row of its code, the codes
being distinct. -/
theorem decodeEncodeRoundTrip : Obligations.DecodeEncodeRoundTrip := by
  intro c i hc _
  have command := decode_encode_commandInstr hc.codesDistinct
  cases i with
  | writeBuffer a p q => exact command .writeBuffer a p q
  | writePage a p q => exact command .writePage a p q
  | writeCrc a p q => exact command .writeCrc a p q
  | ping a p q => exact command .ping a p q
  | setId a p q => exact command .setId a p q
  | response | crcInit | crcUpdate | crcDigest | frameEncode | frameMatch | frameRdec | frameCdec | reservedOp7 => rfl

/-- Settles O44: a frame that decodes has the layout of the row it decodes to. -/
theorem encodeDecodeFrames : Obligations.EncodeDecodeFrames := by
  intro c ch data i h
  cases ch with
  | command =>
    obtain ⟨cmd, a, p, q, rfl, rfl⟩ := exists_command_of_decodeCommand h
    exact encode_commandInstr c cmd a p q
  | response n =>
    obtain ⟨a, code, status, tail, rfl, rfl⟩ := decodeResponse_ok h
    rfl

/-- Settles O45: the payload of the value is the layout of R40 for its own bytes. -/
theorem commandMapOverPayloadValue : Obligations.CommandMapOverPayloadValue := by
  intro P
  have hnodup : Config.deployment.commandCodes.Nodup := deployment_consistent.codesDistinct
  rw [decodeTableWord_payloadValue, isSome_decodeCommand hnodup, Standard.mem_commandCodes deployment_standard]
  refine ⟨Iff.rfl, fun cmd hcode => ?_⟩
  rw [hcode, decodeCommand_commandPayload hnodup]
  rfl

/-- Settles O46: each word is a closed value, and decoding it reads none of the OPEN parameters. -/
theorem specWordsDecode : Obligations.SpecWordsDecode := by
  refine ⟨?_, ?_, ?_, ?_, ?_, ?_, ?_⟩ <;> decide

end

