-- ==== Sys2Proof/Proofs/CrcShift.lean ====
section
/-! PROOF. The word function as shift steps of the register (spec/40_crc.md R60, R61): with nothing reflected, taking in
message bits is XORing them into the top of the register and shifting. From it O11 and O14, the linearity O16, the
register cleared by its own digest O19, and the published value O20; with them O10, O12 and O13. -/

namespace Sys2Proof.Machine

open Reference

/-- The shift step of R61 for any generator: the bit step with message bit 0. -/
def zeroStep (c : Config) (r : Word) : Word := crcBit c r false

theorem zeroStep_xor (c : Config) (a b : Word) : zeroStep c (a ^^^ b) = zeroStep c a ^^^ zeroStep c b :=
  crcBit_xor c a b false false

theorem iterate_zeroStep_xor (c : Config) (n : Nat) (a b : Word) :
    (zeroStep c)^[n] (a ^^^ b) = (zeroStep c)^[n] a ^^^ (zeroStep c)^[n] b :=
  Function.Semiconj₂.iterate (zeroStep_xor c) n a b

theorem zeroStep_zero (c : Config) : zeroStep c 0 = 0 := by simp [zeroStep, crcBit]

theorem iterate_zeroStep_zero (c : Config) (n : Nat) : (zeroStep c)^[n] 0 = 0 :=
  Function.iterate_fixed (zeroStep_zero c) n

theorem zeroStep_eq_shiftStep {c : Config} (h : c.poly = 0x04C11DB7#32) : zeroStep c = shiftStep := by
  funext r
  simp [zeroStep, crcBit, shiftStep, h]

/-- The `n` topmost bits of a register, most significant first. -/
def topBits : Nat → Word → List Bool
  | 0, _ => []
  | n + 1, v => v.getLsbD 31 :: topBits n (v <<< 1)

/-- Shifting the XOR of a register and a value takes in the value's top bit, and shifts what is left of the value. -/
theorem zeroStep_xor_eq_crcBit (c : Config) (r v : Word) :
    zeroStep c (r ^^^ v) = crcBit c r (v.getLsbD 31) ^^^ (v <<< 1) := by
  simp only [zeroStep, crcBit_eq_shift_xor, BitVec.getLsbD_xor, BitVec.shiftLeft_xor_distrib, Bool.bne_false]
  ac_rfl

/-- Shifting `n` times takes in the value's `n` topmost bits. -/
theorem iterate_zeroStep_xor_eq_foldl (c : Config) (n : Nat) (r v : Word) :
    (zeroStep c)^[n] (r ^^^ v) = (topBits n v).foldl (crcBit c) r ^^^ (v <<< n) := by
  induction n generalizing r v with
  | zero => simp [topBits]
  | succ n ih =>
    rw [Function.iterate_succ_apply, zeroStep_xor_eq_crcBit, ih, topBits, List.foldl_cons, ← BitVec.shiftLeft_add,
      Nat.add_comm]

/-- Bits 31 to 24 of a byte at the top of a register are the byte's, the others are 0. -/
theorem getLsbD_topByte (x : Byte) (i : Nat) :
    (x ++ 0#24 : Word).getLsbD i = if i < 24 then false else x.getLsbD (i - 24) :=
  (BitVec.getLsbD_append (x := x) (y := 0#24)).trans (by simp)

/-- The bits of `be32`: byte 0 is the most significant (R9). -/
theorem getLsbD_be32 (w : Bytes4) (i : Nat) : (be32 w).getLsbD i =
    if i < 8 then w.b3.getLsbD i else if i < 16 then w.b2.getLsbD (i - 8)
    else if i < 24 then w.b1.getLsbD (i - 16) else w.b0.getLsbD (i - 24) := by
  refine (BitVec.getLsbD_append (x := w.b0 ++ w.b1 ++ w.b2) (y := w.b3)).trans (if_congr Iff.rfl rfl ?_)
  refine (BitVec.getLsbD_append (x := w.b0 ++ w.b1) (y := w.b2)).trans (if_congr (by omega) rfl ?_)
  refine (BitVec.getLsbD_append (x := w.b0) (y := w.b1)).trans (if_congr (by omega) ?_ ?_)
  all_goals congr 1

/-- A byte's bits, in the order they are consumed, are the top bits of the register that has it in bits 31 to 24. -/
theorem bitsMsbFirst_eq_topBits (x : Byte) : bitsMsbFirst x = topBits 8 (x ++ 0#24) := by
  simp [bitsMsbFirst, topBits, getLsbD_topByte, -BitVec.getLsbD_eq_getElem]

/-- A word's bits, in the order they are consumed, are all the bits of its 32-bit value (R29). -/
theorem bitsMsbFirst_word_eq_topBits (w : Bytes4) :
    bitsMsbFirst w.b0 ++ bitsMsbFirst w.b1 ++ bitsMsbFirst w.b2 ++ bitsMsbFirst w.b3 = topBits 32 (be32 w) := by
  simp [bitsMsbFirst, topBits, getLsbD_be32, -BitVec.getLsbD_eq_getElem]

/-- R61 (a) for the byte function. -/
theorem crcByte_eq_iterate {c : Config} (h : c.refin = false) (r : Word) (x : Byte) :
    crcByte c r x = (zeroStep c)^[8] (r ^^^ (x ++ 0#24)) := by
  have hout : (x ++ 0#24 : Word) <<< 8 = 0 := by
    refine BitVec.eq_of_getLsbD_eq fun i hi => ?_
    simp [getLsbD_topByte]
    omega
  rw [crcByte_of_msbFirst h, bitsMsbFirst_eq_topBits, iterate_zeroStep_xor_eq_foldl, hout]
  simp

/-- R61 (a): the word function XORs the word in and shifts 32 times. -/
theorem crcWord_eq_iterate {c : Config} (h : c.refin = false) (r : Word) (w : Bytes4) :
    crcWord c r (bytesOf w) = (zeroStep c)^[32] (r ^^^ be32 w) := by
  rw [iterate_zeroStep_xor_eq_foldl, ← bitsMsbFirst_word_eq_topBits]
  simp [crcWord, bytesOf, crcByte_of_msbFirst h]

theorem crcWord_zero_eq_iterate {c : Config} (h : c.refin = false) (r : Word) :
    crcWord c r [0, 0, 0, 0] = (zeroStep c)^[32] r := by
  have hzero : r ^^^ be32 ⟨0, 0, 0, 0⟩ = r := BitVec.xor_zero
  have hword := crcWord_eq_iterate h r ⟨0, 0, 0, 0⟩
  rwa [hzero] at hword

/-- R61 (b) for any generator: the register's top byte goes through the table, the rest is shifted. -/
theorem crcByte_eq_xor_iterate {c : Config} (h : c.refin = false) (r : Word) (x : Byte) :
    crcByte c r x = (r <<< 8) ^^^ (zeroStep c)^[8] ((r.extractLsb' 24 8 ^^^ x) ++ 0#24) := by
  have hsplit : r ^^^ (x ++ 0#24) = ((r.extractLsb' 24 8 ^^^ x) ++ 0#24) ^^^ (r <<< 8 >>> 8) := by
    refine BitVec.eq_of_getLsbD_eq fun i hi => ?_
    by_cases h24 : i < 24
    · have hshift : 8 + i < 32 := by omega
      simp [getLsbD_topByte, h24, hshift, -BitVec.getLsbD_eq_getElem]
    · have hshift : ¬ 8 + i < 32 := by omega
      have htop : i - 24 < 8 := by omega
      have hindex : 24 + (i - 24) = i := by omega
      simp [getLsbD_topByte, h24, hshift, htop, hindex]
  have htop : topBits 8 (r <<< 8 >>> 8) = List.replicate 8 false := by
    simp [topBits]
  have hrest : r <<< 8 >>> 8 <<< 8 = r <<< 8 := by
    refine BitVec.eq_of_getLsbD_eq fun i hi => ?_
    have hindex : 8 + (i - 8) < 32 := by omega
    simp [hindex, -BitVec.getLsbD_eq_getElem]
  rw [crcByte_eq_iterate h, hsplit, iterate_zeroStep_xor_eq_foldl, htop, hrest, BitVec.xor_comm]
  rfl

/-- Writing `CRC[k]` and the result leaves everything else (R13, R15). -/
theorem sameButCrc_setCrc (s : State) (k : Acc) (v : Word) (r : Result) :
    s.SameButCrc k ((s.setCrc k v).setResult r) where
  other := by simp
  cfg := by simp
  inputs := by simp

/-- The bit-serial functions read the generator and `REFIN` only. -/
theorem crcByte_congr {c c' : Config} (hp : c.poly = c'.poly) (hr : c.refin = c'.refin) : crcByte c = crcByte c' := by
  have hbit : crcBit c = crcBit c' := by funext r b; simp [crcBit, hp]
  funext r x
  simp [crcByte, messageBits, hbit, hr]

end Sys2Proof.Machine

open Sys2Proof Sys2Proof.Machine Sys2Proof.Reference

/-- Settles O11: the word function is XOR and 32 shift steps. -/
theorem crcUpdateMatchesShiftForm : Obligations.CrcUpdateMatchesShiftForm := by
  intro s k b0 b1 b2 b3 hstd
  have hlen : [b0, b1, b2, b3].length = s.cfg.wordBytes := hstd.wordBytes.symm
  have hword := crcWord_eq_iterate hstd.refin (s.getCrc k) ⟨b0, b1, b2, b3⟩
  rw [zeroStep_eq_shiftStep hstd.poly] at hword
  exact ⟨_, exec_crcUpdate_of_length hlen k, (getCrc_setCrc_same ..).trans hword, sameButCrc_setCrc .., rfl⟩

/-- Settles O14: the byte in bits 31 to 24 goes through the 8 shift steps of the table. -/
theorem crcByteMatchesTable : Obligations.CrcByteMatchesTable := by
  intro c r x hstd
  rw [crcByte_eq_xor_iterate hstd.refin, zeroStep_eq_shiftStep hstd.poly]
  rfl

/-- Settles O16: 32 shift steps are linear, and the word is XORed into the register before them. -/
theorem crcWordIsLinear : Obligations.CrcWordIsLinear := by
  intro c a b w hrefin
  simp only [crcWord_zero_eq_iterate hrefin]
  exact ⟨iterate_zeroStep_xor c 32 a b, crcWord_eq_iterate hrefin a w⟩

/-- Settles O10: what `INIT` is with the spec's parameters. -/
theorem crcInitLoadsInit : Obligations.CrcInitLoadsInit := by
  intro s k hstd
  exact ⟨_, rfl, by simp [hstd.init], sameButCrc_setCrc .., rfl⟩

/-- Settles O12: `WORD_BYTES` is 4 with the spec's parameters, and an error writes only the result. -/
theorem crcUpdateRejectsOtherLengths : Obligations.CrcUpdateRejectsOtherLengths := by
  intro s k w hstd hlen
  rw [← hstd.wordBytes] at hlen
  exact exec_crcUpdate_of_length_ne hlen k

/-- Settles O13: with nothing reflected and nothing XORed the digest is the register's bytes. -/
theorem crcDigestReadsRegister : Obligations.CrcDigestReadsRegister := by
  intro s k hstd
  have hdigest := digestBytes_plain hstd.refout hstd.xorout (s.getCrc k)
  simp only [exec, execCrcDigest, complete_eq, hdigest]
  rfl

/-- Settles O19: the digest is the register's bytes, so the register is XORed with itself before the shifts. -/
theorem ownDigestClearsAccumulator : Obligations.OwnDigestClearsAccumulator := by
  intro s t k d hstd hexec hd
  cases hexec
  cases hd
  have hlen : (bytesOf (digestBytes s.cfg (s.getCrc k))).length = s.cfg.wordBytes := hstd.wordBytes.symm
  refine ⟨_, exec_crcUpdate_of_length (s := s.setResult _) hlen k, ?_⟩
  simp only [setResult_getCrc, getCrc_setCrc_same, setResult_cfg]
  rw [digestBytes_plain hstd.refout hstd.xorout, crcWord_eq_iterate hstd.refin, be32_bytesBe32, BitVec.xor_self]
  exact iterate_zeroStep_zero ..

/-- Settles O20: the value depends on the generator and `REFIN` only, so it is computed with the deployment's. -/
theorem publishedCheckValue : Obligations.PublishedCheckValue := by
  intro c hstd
  have hcfg : crcByte c = crcByte Config.deployment := crcByte_congr hstd.poly hstd.refin
  rw [hcfg]
  decide +kernel

end

