-- ==== Sys2Proof/Proofs/CrcPolynomial.lean ====
section
/-! PROOF. The shift step as multiplication by `x` modulo the generator, over GF(2) (spec/40_crc.md R61 (c)): O15, and,
since the generator has neither the root 0 nor the root 1, O17 and O18 (R70). -/

namespace Sys2Proof.Machine

open Reference Polynomial

/-- The generator of the spec's parameters, with its top bit (R7: `POLY_FULL`). -/
noncomputable def generator : (ZMod 2)[X] := bitPoly 0x104C11DB7#33

theorem coeff_bitPoly {n : Nat} (v : BitVec n) (i : Nat) : (bitPoly v).coeff i = if v.getLsbD i then 1 else 0 := by
  simp only [bitPoly, finsetSum_coeff, apply_ite (fun p : (ZMod 2)[X] => p.coeff i), coeff_X_pow, coeff_zero]
  by_cases hi : i < n
  · rw [Finset.sum_eq_single i (fun j _ hj => by simp [hj.symm]) (fun hn => absurd (Finset.mem_range.mpr hi) hn)]
    simp
  · rw [Finset.sum_eq_zero fun j hj => ?_]
    · simp [BitVec.getLsbD_of_ge v i (Nat.le_of_not_lt hi)]
    · have hj' : i ≠ j := by have := Finset.mem_range.mp hj; omega
      simp [hj']

theorem coeff_bitPoly_eq_one {n : Nat} (v : BitVec n) (i : Nat) : (bitPoly v).coeff i = 1 ↔ v.getLsbD i = true := by
  rw [coeff_bitPoly]
  split <;> simp [*]

theorem bitPoly_injective {n : Nat} : Function.Injective (bitPoly (n := n)) := by
  intro v w h
  refine BitVec.eq_of_getLsbD_eq fun i _ => ?_
  rw [Bool.eq_iff_iff, ← coeff_bitPoly_eq_one, h, coeff_bitPoly_eq_one]

theorem bitPoly_zero {n : Nat} : bitPoly (0 : BitVec n) = 0 := by simp [bitPoly]

theorem bitPoly_xor {n : Nat} (v w : BitVec n) : bitPoly (v ^^^ w) = bitPoly v + bitPoly w := by
  ext i
  simp only [coeff_add, coeff_bitPoly, BitVec.getLsbD_xor]
  cases v.getLsbD i <;> cases w.getLsbD i <;> decide

theorem degree_bitPoly_lt {n : Nat} (v : BitVec n) : (bitPoly v).degree < n := by
  refine (degree_lt_iff_coeff_zero _ _).mpr fun i hi => ?_
  simp [coeff_bitPoly, BitVec.getLsbD_of_ge v i hi]

/-- The top bit of a value is the coefficient of the highest power. -/
theorem bitPoly_succ {n : Nat} (v : BitVec (n + 1)) :
    bitPoly v = (if v.getLsbD n then X ^ n else 0) + bitPoly (v.setWidth n) := by
  rw [bitPoly, Finset.sum_range_succ, add_comm, bitPoly]
  refine congrArg _ (Finset.sum_congr rfl fun i hi => ?_)
  simp [Finset.mem_range.mp hi]

theorem generator_eq : generator = X ^ 32 + bitPoly 0x04C11DB7#32 := bitPoly_succ _

theorem generator_monic : generator.Monic := generator_eq ▸ monic_X_pow_add (degree_bitPoly_lt _)

theorem degree_generator : generator.degree = 32 := by
  rw [generator_eq]
  rw [degree_add_eq_left_of_degree_lt] <;> rw [degree_X_pow]
  · rfl
  · exact degree_bitPoly_lt _

/-- Multiplying by `x` is shifting, with the bit shifted out as the coefficient of `x^32`. -/
theorem X_mul_bitPoly (r : Word) :
    X * bitPoly r = bitPoly (r <<< 1) + if r.getLsbD 31 then X ^ 32 else 0 := by
  ext i
  cases i with
  | zero => simp [coeff_bitPoly, apply_ite (fun p : (ZMod 2)[X] => p.coeff 0)]
  | succ i =>
    simp only [coeff_add, coeff_bitPoly, coeff_X_mul, apply_ite (fun p : (ZMod 2)[X] => p.coeff (i + 1)), coeff_X_pow,
      coeff_zero, BitVec.getLsbD_shiftLeft]
    obtain hi | rfl | hi := Nat.lt_trichotomy i 31
    · have hlt : i + 1 < 32 := by omega
      simp [hlt, hi.ne]
    · simp
    · simp [hi.ne', BitVec.getLsbD_of_ge r i hi]

/-- Taking the generator off when `x^32` was shifted out, a shift step multiplies by `x`. -/
theorem X_mul_bitPoly_eq_zeroStep {c : Config} (h : c.poly = 0x04C11DB7#32) (r : Word) :
    X * bitPoly r = bitPoly (zeroStep c r) + if r.getLsbD 31 then generator else 0 := by
  have hgen : generator = X ^ 32 + bitPoly c.poly := h ▸ generator_eq
  have htwo : bitPoly c.poly + bitPoly c.poly = 0 := CharTwo.add_self_eq_zero _
  have hbit : bitPoly (if r.getLsbD 31 then c.poly else 0#32) = if r.getLsbD 31 then bitPoly c.poly else 0 := by
    split
    · rfl
    · exact bitPoly_zero
  rw [X_mul_bitPoly, zeroStep, crcBit_eq_shift_xor, bitPoly_xor, Bool.bne_false, hbit, hgen]
  split
  · linear_combination -htwo
  · simp only [add_zero]

theorem generator_dvd_X_pow_mul_sub {c : Config} (h : c.poly = 0x04C11DB7#32) (n : Nat) (r : Word) :
    generator ∣ X ^ n * bitPoly r - bitPoly ((zeroStep c)^[n] r) := by
  induction n generalizing r with
  | zero => simp
  | succ n ih =>
    have hstep : generator ∣ X * bitPoly r - bitPoly (zeroStep c r) := by
      rw [X_mul_bitPoly_eq_zeroStep h, add_sub_cancel_left]
      split <;> simp
    have hsum : X ^ (n + 1) * bitPoly r - bitPoly ((zeroStep c)^[n] (zeroStep c r)) =
        X ^ n * (X * bitPoly r - bitPoly (zeroStep c r)) +
          (X ^ n * bitPoly (zeroStep c r) - bitPoly ((zeroStep c)^[n] (zeroStep c r))) := by ring
    rw [Function.iterate_succ_apply, hsum]
    exact dvd_add (hstep.mul_left _) (ih _)

/-- `n` shift steps are multiplication by `x^n` modulo the generator. -/
theorem bitPoly_iterate_zeroStep {c : Config} (h : c.poly = 0x04C11DB7#32) (n : Nat) (r : Word) :
    bitPoly ((zeroStep c)^[n] r) = (bitPoly r * X ^ n) %ₘ generator := by
  obtain ⟨q, hq⟩ := generator_dvd_X_pow_mul_sub h n r
  refine ((div_modByMonic_unique q _ generator_monic ⟨?_, ?_⟩).2).symm
  · rw [← hq]; ring
  · rw [degree_generator]; exact degree_bitPoly_lt _

theorem generator_isCoprime_X_sub_C {a : ZMod 2} (h : generator.eval a ≠ 0) : IsCoprime generator (X - C a) :=
  ((irreducible_X_sub_C a).coprime_iff_not_dvd.mpr fun hdvd => h (dvd_iff_isRoot.mp hdvd)).symm

theorem eval_generator (a : ZMod 2) : generator.eval a = 1 := by
  simp only [generator, bitPoly, eval_finsetSum, apply_ite (eval a), eval_pow, eval_X, eval_zero]
  revert a
  decide

/-- A register that the generator divides after multiplying by something prime to it is 0. -/
theorem eq_zero_of_generator_dvd_mul {p : (ZMod 2)[X]} {r : Word} (hp : IsCoprime generator p)
    (h : generator ∣ p * bitPoly r) : r = 0 := by
  have hdvd : generator ∣ bitPoly r := hp.dvd_of_dvd_mul_left h
  have hzero : bitPoly r = 0 := eq_zero_of_dvd_of_degree_lt hdvd (by rw [degree_generator]; exact degree_bitPoly_lt r)
  exact bitPoly_injective (hzero.trans bitPoly_zero.symm)

/-- The generator does not have the root 0, so no shift loses anything. -/
theorem iterate_zeroStep_injective {c : Config} (h : c.poly = 0x04C11DB7#32) (n : Nat) :
    Function.Injective (zeroStep c)^[n] := by
  intro a b hab
  have hcop : IsCoprime generator (X ^ n) := by
    have hX := generator_isCoprime_X_sub_C (a := 0) (by rw [eval_generator]; decide)
    rw [C_0, sub_zero] at hX
    exact hX.pow_right
  have hzero : (zeroStep c)^[n] (a ^^^ b) = 0 := by rw [iterate_zeroStep_xor, hab, BitVec.xor_self]; rfl
  have hdvd := generator_dvd_X_pow_mul_sub h n (a ^^^ b)
  rw [hzero, bitPoly_zero, sub_zero] at hdvd
  exact BitVec.xor_eq_zero_iff.mp (eq_zero_of_generator_dvd_mul hcop hdvd)

/-- The generator does not have the root 1, and `x^32 - 1` has no other: no register but 0 is its own 32-fold shift. -/
theorem eq_zero_of_iterate_zeroStep_eq {c : Config} (h : c.poly = 0x04C11DB7#32) {r : Word}
    (hr : (zeroStep c)^[32] r = r) : r = 0 := by
  have hcop : IsCoprime generator ((X - C 1) ^ 32) :=
    (generator_isCoprime_X_sub_C (by rw [eval_generator]; decide)).pow_right
  have hpow : ((X : (ZMod 2)[X]) - C 1) ^ 32 = X ^ 32 - 1 := by
    rw [C_1, show 32 = 2 ^ 5 from rfl, sub_pow_char_pow, one_pow]
  have hdvd := generator_dvd_X_pow_mul_sub h 32 r
  rw [hr, ← sub_one_mul, ← hpow] at hdvd
  exact eq_zero_of_generator_dvd_mul hcop hdvd

theorem iterate_zeroStep_bijective {c : Config} (h : c.poly = 0x04C11DB7#32) (n : Nat) :
    Function.Bijective (zeroStep c)^[n] := by
  have hfinite : Finite Word := Finite.of_injective BitVec.toFin fun _ _ => BitVec.eq_of_toFin_eq
  exact Finite.injective_iff_bijective.mp (iterate_zeroStep_injective h n)

theorem bytesBe32_be32 (w : Bytes4) : bytesBe32 (be32 w) = w := by
  obtain ⟨b0, b1, b2, b3⟩ := w
  simp only [bytesBe32, Bytes4.mk.injEq]
  refine ⟨?_, ?_, ?_, ?_⟩ <;> refine BitVec.eq_of_getLsbD_eq fun i hi => ?_ <;>
    simp (disch := omega) only [BitVec.getLsbD_extractLsb', hi, decide_true, Bool.true_and, getLsbD_be32, if_pos,
      if_neg, ↓reduceIte, Nat.add_sub_cancel_left, Nat.zero_add]

theorem be32_bijective : Function.Bijective be32 :=
  Function.bijective_iff_has_inverse.mpr ⟨bytesBe32, bytesBe32_be32, be32_bytesBe32⟩

theorem xor_left_bijective (r : Word) : Function.Bijective (r ^^^ ·) :=
  Function.Involutive.bijective fun v => by simp

theorem xor_right_bijective (v : Word) : Function.Bijective (· ^^^ v) :=
  Function.Involutive.bijective fun r => by simp

end Sys2Proof.Machine

open Sys2Proof Sys2Proof.Machine Sys2Proof.Reference

/-- Settles O15: 32 shift steps are multiplication by `x^32` modulo the generator. -/
theorem crcUpdateIsPolynomialRemainder : Obligations.CrcUpdateIsPolynomialRemainder := by
  intro s t k w hstd hexec
  have hlen : (bytesOf w).length = s.cfg.wordBytes := hstd.wordBytes.symm
  cases (exec_crcUpdate_of_length hlen k).symm.trans hexec
  rw [setResult_getCrc, getCrc_setCrc_same, crcWord_eq_iterate hstd.refin,
    bitPoly_iterate_zeroStep hstd.poly, bitPoly_xor]
  rfl

/-- Settles O17: the shifts, XOR with a fixed value, and `be32` are bijections. -/
theorem crcWordIsBijective : Obligations.CrcWordIsBijective := by
  intro c hstd
  have hshift := iterate_zeroStep_bijective hstd.poly 32
  simp only [crcWord_eq_iterate hstd.refin]
  exact ⟨fun w => hshift.comp (xor_right_bijective (be32 w)),
    fun r => hshift.comp ((xor_left_bijective r).comp be32_bijective)⟩

/-- Settles O18: the zero word is 32 shifts, which fix nothing but 0. -/
theorem zeroWordFixesOnlyZero : Obligations.ZeroWordFixesOnlyZero := by
  intro c r hstd
  rw [crcWord_zero_eq_iterate hstd.refin]
  constructor
  · exact eq_zero_of_iterate_zeroStep_eq hstd.poly
  · rintro rfl
    exact iterate_zeroStep_zero ..

end

