-- ==== Sys2Proof/Proofs/AccumulatorHistory.lean ====
section
/-! PROOF. Who writes an accumulator (spec/10_state.md R15): O23; what an operation that reports an error leaves
(spec/60_exceptions.md R125): O24, O25, O26; and what a run of inputs makes of an accumulator (spec/40_crc.md R64, R65):
O21 and O22. -/

namespace Sys2Proof.Machine

open Reference

/-- No instruction reads the result record. -/
theorem exec_setResult (i : Instr) (s : State) (r : Result) : exec i (s.setResult r) = exec i s := by
  cases i with
  | crcUpdate k w =>
    by_cases h : w.length = s.cfg.wordBytes
    · rw [exec_crcUpdate_of_length h, exec_crcUpdate_of_length (s := s.setResult r) h]
      simp
    · rw [exec_crcUpdate_of_length_ne h, exec_crcUpdate_of_length_ne (s := s.setResult r) h]
      simp
  | crcInit k => simp [exec, execCrcInit]
  | crcDigest k => simp [exec, execCrcDigest]
  | frameEncode => rw [exec_frameEncode_eq, exec_frameEncode_eq]; rfl
  | frameMatch => rw [exec_frameMatch_eq, exec_frameMatch_eq]; rfl
  | frameRdec | frameCdec | reservedOp7 | writeBuffer | writePage | writeCrc | ping | setId | response => rfl

theorem encodeResult_error {c : Config} {board cmd : Byte} {param1 : Half} {param2 : List Byte} {e : OpError}
    (h : encodeResult c board cmd param1 param2 = .error e) :
    e = .illegalCommand cmd ∨ e = .badParam2Length param2.length := by
  unfold encodeResult at h
  split at h
  · cases hp : bytes4? param2 with
    | some p2 => rw [hp] at h; cases h
    | none => rw [hp] at h; cases h; exact .inr rfl
  · cases h; exact .inl rfl

theorem matchResult_error {c : Config} {rx : Frame} {expBoard expCmd : Byte} {e : OpError}
    (h : matchResult c rx expBoard expCmd = .error e) : e = .illegalCommand expCmd := by
  unfold matchResult at h
  split at h <;> cases h
  rfl

/-- An instruction whose result is an error writes nothing else (R125). -/
theorem exec_error {i : Instr} {s t : State} {e : OpError} (h : exec i s = .next t) (he : t.result = some (.error e)) :
    t = s.setResult (.error e) := by
  obtain ⟨r, hr⟩ | ⟨k, -, hr⟩ | ⟨k, w, -, -, hr⟩ := exec_cases i s <;> cases hr.symm.trans h <;> cases he
  rfl

/-- What an instruction makes of the value of an accumulator (R15). -/
def crcAfterInstr (c : Config) (k : Acc) (v : Word) : Instr → Word
  | .crcInit k' => if k' = k then c.init else v
  | .crcUpdate k' w => if k' = k ∧ w.length = c.wordBytes then crcWord c v w else v
  | _ => v

theorem exec_getCrc {i : Instr} {s t : State} (h : exec i s = .next t) (k : Acc) :
    t.getCrc k = crcAfterInstr s.cfg k (s.getCrc k) i := by
  cases i with
  | crcInit k' =>
    cases h
    simp [crcAfterInstr, getCrc_setCrc, eq_comm]
  | crcUpdate k' w =>
    by_cases hlen : w.length = s.cfg.wordBytes
    · cases (exec_crcUpdate_of_length hlen k').symm.trans h
      by_cases hk : k' = k
      · subst hk
        simp [crcAfterInstr, hlen]
      · simp [crcAfterInstr, getCrc_setCrc, hk, Ne.symm hk]
    · cases (exec_crcUpdate_of_length_ne hlen k').symm.trans h
      simp [crcAfterInstr, hlen]
  | frameEncode => cases (exec_frameEncode_eq ..).symm.trans h; exact setResult_getCrc ..
  | frameMatch => cases (exec_frameMatch_eq ..).symm.trans h; exact setResult_getCrc ..
  | crcDigest | frameRdec | frameCdec | reservedOp7 | writeBuffer | writePage | writeCrc | ping | setId | response =>
    cases h; exact setResult_getCrc ..

/-- Only `CRC.INIT k` and `CRC.UPDATE k` change the value of `CRC[k]`. -/
theorem crcAfterInstr_ne {c : Config} {k : Acc} {v : Word} {i : Instr} (h : crcAfterInstr c k v i ≠ v) :
    i = .crcInit k ∨ ∃ w, i = .crcUpdate k w := by
  cases i with
  | crcInit k' =>
    by_cases hk : k' = k
    · exact .inl (hk ▸ rfl)
    · exact absurd (if_neg hk) h
  | crcUpdate k' w =>
    by_cases hk : k' = k
    · exact .inr ⟨w, hk ▸ rfl⟩
    · exact absurd (if_neg fun hand => hk hand.1) h
  | _ => exact absurd rfl h

/-- A request does to an accumulator what its operation does (R51, R52). -/
theorem crcAfterInstr_decodeRequest (c : Config) (k : Acc) (v : Word) (q : Request) :
    crcAfterInstr c k v (decodeRequest q) = crcAfterInput c k v (.request q) := by
  unfold decodeRequest
  split
  all_goals simp_all [crcAfterInstr, crcAfterInput]

/-- No frame off the bus decodes to an operation on an accumulator (R55). -/
theorem crcAfterInstr_of_decode_busFrame {c : Config} {ch : Channel} {data : List Byte} {i : Instr}
    (h : decode c (.busFrame ch data) = .ok i) (k : Acc) (v : Word) : crcAfterInstr c k v i = v := by
  cases ch with
  | command =>
    obtain ⟨_, _, _, _, -, ⟨-, rfl⟩ | ⟨-, rfl⟩ | ⟨-, rfl⟩ | ⟨-, rfl⟩ | ⟨-, rfl⟩⟩ := decodeCommand_ok h <;> rfl
  | response n => obtain ⟨_, _, _, _, -, rfl⟩ := decodeResponse_ok h; rfl

/-- What a performed input makes of an accumulator (R15, R36). -/
theorem present_getCrc {x : Input} {s t : State} (h : present x s = .next t) (k : Acc) :
    t.getCrc k = crcAfterInput s.cfg k (s.getCrc k) x := by
  obtain ⟨rfl, hx⟩ | ⟨i, hdec, hx⟩ | ⟨ch, data, r, rfl, hx⟩ | ⟨n, -, hx⟩ := present_cases x s
  · cases hx.symm.trans h; exact applyReset_getCrc ..
  · rw [exec_getCrc (hx.symm.trans h)]
    cases x with
    | reset => cases hdec
    | request q => cases hdec; exact crcAfterInstr_decodeRequest ..
    | busFrame ch data => exact crcAfterInstr_of_decode_busFrame hdec ..
  · cases hx.symm.trans h; exact setResult_getCrc ..
  · cases hx.symm.trans h

/-- An input that does not concern an accumulator leaves it (R36). -/
theorem crcAfterInput_of_not_concerns {k : Acc} {x : Input} (h : concernsCrc k x = false) (c : Config) (v : Word) :
    crcAfterInput c k v x = v := by
  cases x with
  | reset => cases h
  | busFrame ch data => rfl
  | request q =>
    simp only [concernsCrc, Bool.and_eq_false_imp, beq_iff_eq, Bool.or_eq_false_iff, beq_eq_false_iff_ne] at h
    have hinit : ¬ (q.k = k ∧ q.op = 0#3) := fun hq => (h hq.1).1 hq.2
    have hupdate : ¬ (q.k = k ∧ q.op = 1#3 ∧ q.w.length = c.wordBytes) := fun hq => (h hq.1).2 hq.2.1
    simp only [crcAfterInput, hinit, hupdate, if_false]

/-- A run over all the inputs folds them into each accumulator, and keeps the configuration. -/
theorem runSteps_inputs {s t : State} {xs : List Input} (hs : s.inputs = xs) (h : runSteps xs.length s = .next t)
    (k : Acc) : t.inputs = [] ∧ t.cfg = s.cfg ∧ t.getCrc k = xs.foldl (crcAfterInput s.cfg k) (s.getCrc k) := by
  induction xs generalizing s with
  | nil => cases h; exact ⟨hs, rfl, rfl⟩
  | cons x xs ih =>
    have hstep : step s = present x (s.setInputs xs) := by simp only [step, hs]
    simp only [List.length_cons, runSteps, hstep] at h
    cases hx : present x (s.setInputs xs) with
    | fault r => cases r
    | refused r => rw [hx] at h; cases h
    | next u =>
      rw [hx] at h
      obtain ⟨hcfg, hinputs, -⟩ := present_keeps hx
      have hcrc := present_getCrc hx k
      obtain ⟨hnil, htcfg, hfold⟩ := ih (hinputs.trans (setInputs_inputs ..)) h
      rw [hcfg, hcrc, setInputs_cfg, setInputs_getCrc] at hfold
      exact ⟨hnil, htcfg.trans hcfg, hfold⟩

/-- What an initialisation (or reset) or an update makes of an accumulator, whatever its name (R62, R63). -/
def crcAfterEvent (c : Config) (v : Word) : Option (List Byte) → Word
  | none => c.init
  | some w => if w.length = c.wordBytes then crcWord c v w else v

/-- An accumulator follows only what its events say. -/
theorem crcAfterInput_eq_event (c : Config) (k : Acc) (v : Word) (x : Input) :
    crcAfterInput c k v x = ((crcEvent k x).map (crcAfterEvent c v)).getD v := by
  cases x with
  | reset => rfl
  | busFrame ch data => rfl
  | request q =>
    by_cases hinit : q.k = k ∧ q.op = 0#3
    · simp [crcAfterInput, crcEvent, crcAfterEvent, hinit]
    · by_cases hupdate : q.k = k ∧ q.op = 1#3
      · simp [crcAfterInput, crcEvent, crcAfterEvent, hupdate]
      · have hword : ¬ (q.k = k ∧ q.op = 1#3 ∧ q.w.length = c.wordBytes) := fun hq => hupdate ⟨hq.1, hq.2.1⟩
        simp [crcAfterInput, crcEvent, hinit, hupdate, hword]

theorem foldl_crcAfterInput_eq_events (c : Config) (k : Acc) (v : Word) (xs : List Input) :
    xs.foldl (crcAfterInput c k) v = (xs.filterMap (crcEvent k)).foldl (crcAfterEvent c) v := by
  induction xs generalizing v with
  | nil => rfl
  | cons x xs ih =>
    rw [List.foldl_cons, ih, crcAfterInput_eq_event]
    cases h : crcEvent k x <;> simp [h]

end Sys2Proof.Machine

open Sys2Proof Sys2Proof.Machine Sys2Proof.Reference

/-- Settles O23: the frame of an instruction, and what it makes of an accumulator. -/
theorem onlyCrcOperationsWriteAccumulators : Obligations.OnlyCrcOperationsWriteAccumulators := by
  intro i s t k h
  obtain ⟨u, r, hu, hcfg, hinputs, -⟩ := exec_delivers_legal i s
  cases hu.symm.trans h
  exact ⟨hcfg, hinputs, fun hne => crcAfterInstr_ne (exec_getCrc h k ▸ hne)⟩

/-- Settles O24: an error writes only the result, and each operation's own check says which error it is. -/
theorem errorsLeaveNoTrace : Obligations.ErrorsLeaveNoTrace := by
  intro i s t e h he
  refine ⟨exec_error h he ▸ State.sameButResult_setResult .., ?_⟩
  cases i with
  | crcUpdate k w =>
    by_cases hlen : w.length = s.cfg.wordBytes
    · cases (exec_crcUpdate_of_length hlen k).symm.trans h; cases he
    · cases (exec_crcUpdate_of_length_ne hlen k).symm.trans h; cases he; rfl
  | frameEncode board cmd param1 param2 =>
    cases (exec_frameEncode_eq ..).symm.trans h
    exact encodeResult_error (Option.some.inj he)
  | frameMatch rx expBoard expCmd =>
    cases (exec_frameMatch_eq ..).symm.trans h
    exact matchResult_error (Option.some.inj he)
  | reservedOp7 => cases h; cases he; rfl
  | crcInit | crcDigest | frameRdec | frameCdec | writeBuffer | writePage | writeCrc | ping | setId | response =>
    cases h; cases he

/-- Settles O25: only the result record was written, and no instruction reads it. -/
theorem errorsAreNotSticky : Obligations.ErrorsAreNotSticky := by
  intro i j s t e h he
  rw [exec_error h he, exec_setResult]

/-- Settles O26: raising an error delivers it as the result. -/
theorem reservedOpReportsIllegalOp : Obligations.ReservedOpReportsIllegalOp := fun s => raiseError_eq .illegalOp s

/-- Settles O21: the inputs that do not concern the accumulator drop out of the fold. -/
theorem accumulatorFollowsItsOwnOperations : Obligations.AccumulatorFollowsItsOwnOperations := by
  intro s t k h
  obtain ⟨hnil, -, hfold⟩ := runSteps_inputs rfl h k
  refine ⟨hnil, hfold.trans ?_⟩
  rw [List.foldl_filter]
  congr 1
  funext v x
  cases hx : concernsCrc k x with
  | true => rfl
  | false => exact crcAfterInput_of_not_concerns hx ..

/-- Settles O22: an accumulator's value is decided by its events, and its digest by its value. -/
theorem equalStreamsGiveEqualDigests : Obligations.EqualStreamsGiveEqualDigests := by
  intro s s' t t' k k' hcfg hcrc hevents hrun hrun'
  obtain ⟨-, htcfg, hfold⟩ := runSteps_inputs rfl hrun k
  obtain ⟨-, htcfg', hfold'⟩ := runSteps_inputs rfl hrun' k'
  have hvalue : t.getCrc k = t'.getCrc k' := by
    rw [hfold, hfold', foldl_crcAfterInput_eq_events, foldl_crcAfterInput_eq_events, hevents, hcfg, hcrc]
  have hcfgs : t.cfg = t'.cfg := by rw [htcfg, htcfg', hcfg]
  exact ⟨_, _, _, rfl, rfl, rfl, by rw [hvalue, hcfgs]; rfl⟩

end

