-- ==== Sys2Proof/Proofs/CodecConditions.lean ====
section
/-! PROOF. When each frame operation delivers what (spec/41_frame_codec.md R75 to R82), as an equivalence each: O28, O30
to O36 and O38. -/

namespace Sys2Proof.Machine

theorem encodeResult_of_not_mem {c : Config} {cmd : Byte} (h : cmd ∉ c.commandCodes) (board : Byte) (param1 : Half)
    (param2 : List Byte) : encodeResult c board cmd param1 param2 = .error (.illegalCommand cmd) :=
  if_neg fun hcode => h ((isCommandCode_iff ..).mp hcode)

theorem matchResult_of_not_mem {c : Config} {expCmd : Byte} (h : expCmd ∉ c.commandCodes) (rx : Frame)
    (expBoard : Byte) : matchResult c rx expBoard expCmd = .error (.illegalCommand expCmd) :=
  if_neg fun hcode => h ((isCommandCode_iff ..).mp hcode)

theorem matchResult_of_mem {c : Config} {expCmd : Byte} (h : expCmd ∈ c.commandCodes) (rx : Frame) (expBoard : Byte) :
    matchResult c rx expBoard expCmd = .matched (matchStatus c rx expBoard expCmd) :=
  if_pos ((isCommandCode_iff ..).mpr h)

/-- `FRAME.ENCODE` of a 4-byte `param2` gives a frame exactly for an assigned code, and then the command frame (R75). -/
theorem encodeResult_eq_frame {c : Config} {board cmd : Byte} {param1 : Half} {param2 : Bytes4} {f : Frame} :
    encodeResult c board cmd param1 (bytesOf param2) = .frame f ↔
      cmd ∈ c.commandCodes ∧ commandFrame c board cmd param1 param2 = f := by
  rw [← isCommandCode_iff]
  cases h : isCommandCode c cmd <;> simp [encodeResult, h]

/-- A command payload determines its operands (R77). -/
theorem commandPayload_eq_bytes {a code : Byte} {p : Half} {q : Bytes4} {b0 b1 b2 b3 b4 b5 b6 b7 : Byte} :
    commandPayload a code p q = [b0, b1, b2, b3, b4, b5, b6, b7] ↔
      a = b0 ∧ code = b1 ∧ p = le16 b2 b3 ∧ q = ⟨b7, b6, b5, b4⟩ := by
  constructor
  · intro h
    obtain ⟨q0, q1, q2, q3⟩ := q
    simp only [commandPayload, bytesOf, rev4, List.cons_append, List.nil_append, List.cons.injEq, and_true] at h
    obtain ⟨rfl, rfl, rfl, rfl, rfl, rfl, rfl, rfl⟩ := h
    simp
  · rintro ⟨rfl, rfl, rfl, rfl⟩
    simp [commandPayload, bytesOf, rev4]

/-- `FRAME.RDEC` is valid exactly on a recognised identifier with bytes enough, and reads the first three (R80). -/
theorem responseFields_eq_some {c : Config} {rx : Frame} {f : ResponseFields} :
    responseFields c rx = some f ↔ isRespId c rx.id = true ∧ c.respMinBytes ≤ rx.len ∧
      ∃ tail, rx.data = f.board :: f.code :: f.status :: tail := by
  obtain ⟨id, data⟩ := rx
  obtain ⟨board, code, status⟩ := f
  by_cases hcond : isRespId c id = true ∧ c.respMinBytes ≤ data.length
  · rw [responseFields, if_pos (by simpa using hcond)]
    match data with
    | [] | [_] | [_, _] => simp
    | _ :: _ :: _ :: _ => simp [hcond]
  · rw [responseFields, if_neg (by simpa using hcond)]
    exact ⟨fun h => (by cases h), fun ⟨hid, hlen, _⟩ => absurd ⟨hid, hlen⟩ hcond⟩

/-- `FRAME.MATCH` matches exactly when `FRAME.RDEC` gives the expected board and code (R80). -/
theorem matchStatus_eq_some {c : Config} {rx : Frame} {expBoard expCmd status : Byte} :
    matchStatus c rx expBoard expCmd = some status ↔ responseFields c rx = some ⟨expBoard, expCmd, status⟩ := by
  unfold matchStatus responseFields
  split
  · split
    · simp [and_assoc]
    · simp
  · simp

/-- Off the recognised range there is no response (R41, R79). -/
theorem responseFields_of_not_isRespId {c : Config} {rx : Frame} (h : isRespId c rx.id = false) :
    responseFields c rx = none := by
  simp [responseFields, h]

theorem matchStatus_of_responseFields_none {c : Config} {rx : Frame} (h : responseFields c rx = none)
    (expBoard expCmd : Byte) : matchStatus c rx expBoard expCmd = none :=
  Option.eq_none_iff_forall_ne_some.mpr fun status hs => by
    rw [matchStatus_eq_some.mp hs] at h
    cases h

/-- `FRAME.CDEC` is valid exactly on the command frame of the fields it gives (R81). -/
theorem commandFields_eq_some {c : Config} (h : c.frameBytes = 8) {rx : Frame} {f : CommandFields} :
    commandFields c rx = some f ↔
      rx = commandFrame c f.board f.code f.param1 f.param2 ∧ f.known = isCommandCode c f.code := by
  constructor
  · intro hf
    obtain ⟨id, data⟩ := rx
    unfold commandFields at hf
    split at hf
    · rename_i hcond
      simp only [Bool.and_eq_true, decide_eq_true_eq] at hcond
      obtain ⟨rfl, -⟩ := hcond
      split at hf
      · rename_i hdata
        cases hf
        cases hdata
        exact ⟨congrArg _ (commandPayload_of_bytes ..).symm, rfl⟩
      · cases hf
    · cases hf
  · rintro ⟨rfl, hknown⟩
    rw [commandFields_commandFrame h, ← hknown]

/-- A list starts with three given bytes exactly when it is long enough and has them there. -/
theorem exists_tail_iff {data : List Byte} {b0 b1 b2 : Byte} :
    (∃ tail, data = b0 :: b1 :: b2 :: tail) ↔
      3 ≤ data.length ∧ data[0]? = some b0 ∧ data[1]? = some b1 ∧ data[2]? = some b2 := by
  match data with
  | [] | [_] | [_, _] | _ :: _ :: _ :: _ => simp

end Sys2Proof.Machine

open Sys2Proof Sys2Proof.Machine

/-- Settles O28: the codes 0 and 6 to 255 are not among the five. -/
theorem unassignedCodesAreRefused : Obligations.UnassignedCodesAreRefused := by
  intro s board cmd param1 param2 rx hstd hcmd
  have hmem : cmd ∉ s.cfg.commandCodes := by
    rw [Standard.mem_commandCodes hstd]
    bv_omega
  rw [exec_frameEncode_eq, exec_frameMatch_eq, encodeResult_of_not_mem hmem, matchResult_of_not_mem hmem]
  exact ⟨rfl, rfl⟩

/-- Settles O30: the encoder's frame has the given bytes exactly for the operands read from them. -/
theorem encodeIsBijectiveOnLegalOperands : Obligations.EncodeIsBijectiveOnLegalOperands := by
  intro s b0 b1 b2 b3 b4 b5 b6 b7 hmem
  refine ⟨(b0, b1, le16 b2 b3, ⟨b7, b6, b5, b4⟩), ?_, ?_⟩
  · refine (exec_frameEncode_of_mem hmem ..).trans ?_
    rw [commandFrame, commandPayload_of_bytes]
    rfl
  · rintro ⟨a, code, p, q⟩ hq
    rw [exec_frameEncode_eq] at hq
    have hresult : encodeResult s.cfg a code p (bytesOf q) = .frame ⟨s.cfg.cmdId, [b0, b1, b2, b3, b4, b5, b6, b7]⟩ :=
      Option.some.inj (congrArg State.result (Host.Outcome.next.inj hq))
    have hdata := congrArg Frame.data (encodeResult_eq_frame.mp hresult).2
    obtain ⟨rfl, rfl, rfl, rfl⟩ := commandPayload_eq_bytes.mp hdata
    rfl

/-- Settles O31: the filter's four conditions are the response decoder's, with the expected board and code. -/
theorem matchIsTheFourConditions : Obligations.MatchIsTheFourConditions := by
  intro s rx expBoard expCmd hstd hlo hhi
  have hmem : expCmd ∈ s.cfg.commandCodes := (Standard.mem_commandCodes hstd).mpr ⟨hlo, hhi⟩
  refine ⟨matchStatus s.cfg rx expBoard expCmd, ?_, fun x => ?_⟩
  · rw [exec_frameMatch_eq, matchResult_of_mem hmem]
    rfl
  · rw [matchStatus_eq_some, responseFields_eq_some, isRespId_iff, exists_tail_iff, hstd.respMinBytes]
    tauto

/-- Settles O32: at least 3 bytes are what the three fields need. -/
theorem rdecReadsFirstThreeBytes : Obligations.RdecReadsFirstThreeBytes := by
  intro s rx hstd
  refine ⟨responseFields s.cfg rx, exec_frameRdec_eq rx s, fun f => ?_⟩
  rw [responseFields_eq_some, isRespId_iff, hstd.respMinBytes]
  refine and_congr_right fun _ => and_iff_right_of_imp ?_
  exact fun htail => (exists_tail_iff.mp htail).1

/-- Settles O33: a command frame is `CMD_ID` with the layout of R40. -/
theorem cdecReadsEightBytes : Obligations.CdecReadsEightBytes := by
  intro s rx hstd
  refine ⟨commandFields s.cfg rx, exec_frameCdec_eq rx s, fun f => ?_⟩
  rw [commandFields_eq_some hstd.frameBytes, ← Standard.mem_commandCodes hstd, ← isCommandCode_iff, Bool.eq_iff_iff,
    ← and_assoc]
  refine and_congr_left fun _ => ?_
  obtain ⟨id, data⟩ := rx
  rw [commandFrame, Frame.mk.injEq]
  rfl

/-- Settles O34: the filter matches exactly when the response decoder gives the expected board and code. -/
theorem matchAgreesWithRdec : Obligations.MatchAgreesWithRdec := by
  intro s t u rx b c st hmem ht hu
  rw [exec_frameMatch_eq, matchResult_of_mem hmem] at ht
  cases ht
  cases hu
  simp [matchStatus_eq_some]

/-- Settles O35: the decoder is valid exactly on the command frames, which the encoder makes of their operands. -/
theorem codecRoundTrips : Obligations.CodecRoundTrips := by
  intro s hstd
  constructor
  · intro t u board cmd param1 param2 f ht hf hu
    rw [exec_frameEncode_eq] at ht
    cases ht
    obtain ⟨hmem, rfl⟩ := encodeResult_eq_frame.mp (Option.some.inj hf)
    rw [exec_setResult, exec_frameCdec_commandFrame hstd.frameBytes hmem] at hu
    cases hu
    rfl
  · intro t u rx f ht hf hknown hu
    cases ht
    have hfields : commandFields s.cfg rx = some f := Result.command.inj (Option.some.inj hf)
    obtain ⟨rfl, hcode⟩ := (commandFields_eq_some hstd.frameBytes).mp hfields
    have hmem : f.code ∈ s.cfg.commandCodes := (isCommandCode_iff ..).mp (hcode ▸ hknown)
    rw [exec_setResult, exec_frameEncode_of_mem hmem] at hu
    cases hu
    rfl

/-- Settles O36: `CMD_ID` is not a recognised response identifier. -/
theorem ownCommandFrameIsNoResponse : Obligations.OwnCommandFrameIsNoResponse := by
  intro s t board cmd b c param1 param2 f hc hmem ht hf
  rw [exec_frameEncode_eq] at ht
  cases ht
  have hlegal := encodeResult_legal s.cfg board cmd param1 param2
  rw [show encodeResult s.cfg board cmd param1 param2 = .frame f from Option.some.inj hf] at hlegal
  have hid : isRespId s.cfg f.id = false := by
    rw [hlegal.1, Bool.eq_false_iff, ne_eq, isRespId_iff]
    exact hc.cmdIdNotRecognised
  have hnone := responseFields_of_not_isRespId hid
  rw [exec_setResult, exec_setResult, exec_frameMatch_eq, exec_frameRdec_eq, matchResult_of_mem hmem, hnone,
    matchStatus_of_responseFields_none hnone]
  exact ⟨rfl, rfl⟩

/-- Settles O38: the status is byte 2, and a frame that fails a condition is no match. -/
theorem statusIsPassedThrough : Obligations.StatusIsPassedThrough := by
  intro s hstd
  constructor
  · intro board code status tail n hn hlo hhi rx
    have hmem : code ∈ s.cfg.commandCodes := (Standard.mem_commandCodes hstd).mpr ⟨hlo, hhi⟩
    have hfields : responseFields s.cfg rx = some ⟨board, code, status⟩ := by
      have hid : isRespId s.cfg rx.id = true :=
        (isRespId_iff ..).mpr ⟨Nat.le_add_right .., Nat.add_lt_add_left hn _⟩
      refine responseFields_eq_some.mpr ⟨hid, ?_, tail, rfl⟩
      rw [hstd.respMinBytes]
      exact (exists_tail_iff.mp ⟨tail, rfl⟩).1
    rw [exec_frameMatch_eq, exec_frameRdec_eq, matchResult_of_mem hmem, matchStatus_eq_some.mpr hfields, hfields]
    exact ⟨rfl, rfl⟩
  · intro rx expBoard expCmd hlo hhi hfail
    obtain ⟨status, hexec, hiff⟩ := matchIsTheFourConditions s rx expBoard expCmd hstd hlo hhi
    have hnone : status = none := Option.eq_none_iff_forall_ne_some.mpr fun x hx => by
      obtain ⟨⟨hbase, hcount⟩, hlen, hboard, hcode, -⟩ := (hiff x).mp hx
      obtain hid | hshort | hother | hother := hfail
      · omega
      · omega
      · exact hother hboard
      · exact hother hcode
    rw [hexec, hnone]

end

