-- ==== Sys2Proof/Proofs/FrameRows.lean ====
section
/-! PROOF. The frame rows (spec/42_commands.md R90 to R96; log 5) and every other frame off the bus (spec/30_encoding.md
R54; log 6): O39 to O42, and the `WriteBuffer` frame of an image word, O48. -/

namespace Sys2Proof.Machine

open Reference

/-- A command row is decoded as the frame of its code (R91 to R95). -/
theorem exec_commandInstr (cmd : Command) (a : Byte) (p : Half) (q : Bytes4) (s : State) :
    exec (commandInstr cmd a p q) s = decodeAsCommand (commandFrame s.cfg a (cmd.code s.cfg) p q) s := by
  cases cmd <;> rfl

/-- A command row gives its operands back, `known`, with the command's code (R81). -/
theorem exec_commandInstr_eq {s : State} (h : s.cfg.frameBytes = 8) (cmd : Command) (a : Byte) (p : Half) (q : Bytes4) :
    exec (commandInstr cmd a p q) s =
      .next (s.setResult (.command (some ⟨true, a, cmd.code s.cfg, p, q⟩))) := by
  rw [exec_commandInstr, decodeAsCommand_eq, commandFields_commandFrame h, isCommandCode_code]

/-- The `n`-th identifier from the base is recognised if there are so many (R41). -/
theorem isRespId_channelId (c : Config) (n : Nat) :
    isRespId c (channelId c (.response n)) = decide (n < c.respIdCount) := by
  rw [Bool.eq_iff_iff, isRespId_iff, decide_eq_true_iff]
  simp [channelId]

/-- A frame on the `n`-th response identifier gives its first three bytes, if the identifier is recognised (R80). -/
theorem responseFields_channelFrame {c : Config} (h : c.respMinBytes = 3) (n : Nat) (a code status : Byte)
    (tail : List Byte) : responseFields c (channelFrame c (.response n) (a :: code :: status :: tail)) =
      if n < c.respIdCount then some ⟨a, code, status⟩ else none := by
  split
  case isTrue hn =>
    refine responseFields_eq_some.mpr ⟨?_, ?_, tail, rfl⟩
    · exact (isRespId_channelId c n).trans (decide_eq_true hn)
    · rw [h]; exact (exists_tail_iff.mp ⟨tail, rfl⟩).1
  case isFalse hn => exact responseFields_of_not_isRespId ((isRespId_channelId c n).trans (decide_eq_false hn))

theorem responseFields_of_short {c : Config} {rx : Frame} (h : rx.len < c.respMinBytes) :
    responseFields c rx = none := by
  simp [responseFields, Nat.not_le.mpr h]

theorem commandFields_of_length_ne {c : Config} {rx : Frame} (h : rx.len ≠ c.frameBytes) :
    commandFields c rx = none := by
  simp [commandFields, h]

/-- A frame off the bus that can be presented goes to the decoder of its identifier, row of the table or not (R55). -/
theorem present_busFrame {s : State} {ch : Channel} {data : List Byte} (h : data.length ≤ s.cfg.rxMaxBytes) :
    present (.busFrame ch data) s = decodeBusFrame ch data s := by
  cases hdec : decode s.cfg (.busFrame ch data) with
  | error e => simp only [present, hdec, h, if_true]
  | ok i =>
    have hfits : i.fits s.cfg = true := by simpa [Instr.fits, frameLen_of_decode hdec] using h
    rw [present_of_decode hdec, execIfFits, if_pos hfits]
    cases ch with
    | command =>
      obtain ⟨cmd, a, p, q, rfl, rfl⟩ := exists_command_of_decodeCommand hdec
      exact exec_commandInstr cmd a p q s
    | response n =>
      obtain ⟨a, code, status, tail, rfl, rfl⟩ := decodeResponse_ok hdec
      rfl

/-- A step on a frame off the bus delivers what the decoder of its identifier makes of it. -/
theorem step_busFrame {s : State} {rest : List Input} {ch : Channel} {data : List Byte}
    (hcons : s.inputs = .busFrame ch data :: rest) (h : data.length ≤ s.cfg.rxMaxBytes) :
    step s = decodeBusFrame ch data (s.setInputs rest) := by
  simp only [step, hcons]
  exact present_busFrame h

end Sys2Proof.Machine

open Sys2Proof Sys2Proof.Machine Sys2Proof.Environment Sys2Proof.Reference

/-- Settles O39: each row is the row of a command, whose code the spec's parameters give. -/
theorem commandFramesDecodeToTheirOperands : Obligations.CommandFramesDecodeToTheirOperands := by
  intro s a p q hstd
  have row (cmd : Command) (code : Byte) (hcode : cmd.code s.cfg = code) : exec (commandInstr cmd a p q) s =
      .next (s.setResult (.command (some ⟨true, a, code, p, q⟩))) :=
    hcode ▸ exec_commandInstr_eq hstd.frameBytes cmd a p q
  exact ⟨row .writeBuffer _ hstd.codeWriteBuffer, row .writePage _ hstd.codeWritePage,
    row .writeCrc _ hstd.codeWriteCrc, row .ping _ hstd.codePing, row .setId _ hstd.codeSetId⟩

/-- Settles O40: the row's frame is on its response identifier, with its three fields in front. -/
theorem responseFrameDecodesToItsFields : Obligations.ResponseFrameDecodesToItsFields := by
  intro s n a c st tail hstd
  rw [← responseFields_channelFrame hstd.respMinBytes n a c st tail]
  rfl

/-- Settles O41: a command's code is assigned, and its row is encoded as the payload of that code. -/
theorem commandFrameIsWhatEncodeProduces : Obligations.CommandFrameIsWhatEncodeProduces := by
  intro s cmd a p q
  have hmem : cmd.code s.cfg ∈ s.cfg.commandCodes := mem_commandCodes_iff.mpr ⟨cmd, rfl⟩
  exact ⟨_, exec_frameEncode_of_mem hmem a p q, rfl, encode_commandInstr s.cfg cmd a p q⟩

/-- Settles O42: each frame that can be presented goes to a decoder, and the decoders' conditions are on
its length. -/
theorem everyBusFrameIsDecoded : Obligations.EveryBusFrameIsDecoded := by
  intro s rest data hstd
  have hmax : s.cfg.rxMaxBytes = 8 := hstd.rxMaxBytes
  refine ⟨?_, ?_, ?_, ?_⟩
  · rintro a c l h d4 d5 d6 d7 rfl hcons
    have hknown : isCommandCode s.cfg c = decide (1#8 ≤ c ∧ c ≤ 5#8) := by
      rw [Bool.eq_iff_iff, isCommandCode_iff, Standard.mem_commandCodes hstd, decide_eq_true_iff]
    have hfields : commandFields s.cfg (channelFrame s.cfg .command [a, c, l, h, d4, d5, d6, d7]) =
        some ⟨isCommandCode s.cfg c, a, c, le16 l h, ⟨d7, d6, d5, d4⟩⟩ := by
      rw [← commandPayload_of_bytes]
      exact commandFields_commandFrame hstd.frameBytes a c (le16 l h) ⟨d7, d6, d5, d4⟩
    rw [step_busFrame hcons (by simp [hmax]), decodeBusFrame, decodeAsCommand_eq, setInputs_cfg, hfields, hknown]
    rfl
  · intro hlen hcons
    have hfields : commandFields s.cfg (channelFrame s.cfg .command data) = none :=
      commandFields_of_length_ne (by rw [hstd.frameBytes]; exact hlen.ne)
    rw [step_busFrame hcons (by omega), decodeBusFrame, decodeAsCommand_eq, setInputs_cfg, hfields]
    rfl
  · intro n hlen hcons
    have hfields : responseFields s.cfg (channelFrame s.cfg (.response n) data) = none :=
      responseFields_of_short (by rw [hstd.respMinBytes]; exact hlen)
    rw [step_busFrame hcons (by omega), decodeBusFrame, decodeAsResponse_eq, setInputs_cfg, hfields]
    rfl
  · rintro n a c st tail rfl hlen hcons
    rw [step_busFrame hcons (by omega), ← responseFields_channelFrame hstd.respMinBytes n a c st tail]
    rfl

/-- Settles O48: the word is in reverse byte order, and the encoder reverses it on the wire. -/
theorem writeBufferCarriesImageOrder : Obligations.WriteBufferCarriesImageOrder := by
  intro s board index padded p j hstd hlen
  have hmem : 1#8 ∈ s.cfg.commandCodes := (Standard.mem_commandCodes hstd).mpr ⟨by decide, by decide⟩
  have haddr : s.cfg.pageBytes * p + s.cfg.wordBytes * j = 1024 * p + 4 * j := by rw [hstd.pageBytes, hstd.wordBytes]
  obtain ⟨b0, b1, b2, b3, hbytes, h0, h1, h2, h3⟩ := bytesOf_imageWord haddr hlen
  have hword : imageWord s.cfg padded p j = ⟨b3, b2, b1, b0⟩ := bytesOf_injective hbytes
  refine ⟨_, _, exec_frameEncode_of_mem hmem board index _, rfl, fun i hi => ?_⟩
  rw [hword]
  interval_cases i
  exacts [h0.symm, h1.symm, h2.symm, h3.symm]

end

