-- ==== Sys2Proof/Proofs/CommandResponse.lean ====
section
/-! PROOF. What `command_response` does against each script of the bus (spec/45_host_sequences.md R105 to R109): O49 to
O53, and the handshake against a silent peer (R104, R114): O54. -/

namespace Sys2Proof.Environment

open Machine

theorem lowByte_ofNat (n : Nat) : lowByte (BitVec.ofNat 16 n) = BitVec.ofNat 8 n := by
  refine BitVec.eq_of_toNat_eq ?_
  simp [lowByte, BitVec.extractLsb'_toNat]

theorem highByte_ofNat {n : Nat} (h : n < 256) : highByte (BitVec.ofNat 16 n) = 0#8 := by
  refine BitVec.eq_of_toNat_eq ?_
  simp [highByte, BitVec.extractLsb'_toNat]
  omega

/-- The environment as a command's first attempt finds it: the frame was asked for, and the client waits (R103,
R105). -/
def afterEncode (e : Env) (f : Frame) : Env :=
  { e with block := e.block.setResult (.frame f), client := .awaitingReply }

/-- `command_response` with a 4-byte parameter makes its attempts with the command's frame (R105). -/
theorem commandResponse_eq (e : Env) (board expBoard : Byte) (cmd : Command) (param1 : Half) (param2 : Bytes4)
    (maxTries : Nat) :
    let f := commandFrame e.block.cfg board (cmd.code e.block.cfg) param1 param2
    commandResponse board cmd param1 (bytesOf param2) maxTries expBoard e =
      settleClient (attemptLoop f expBoard cmd maxTries (afterEncode e f)) := by
  simp only [commandResponse]
  rw [ask_encodeRequest { e with client := .awaitingReply } board cmd param1 param2]
  rfl

/-- The client's state apart, a command's outcome is that of its attempts. -/
theorem commandResponse_settled (e : Env) (board expBoard : Byte) (cmd : Command) (param1 : Half) (param2 : Bytes4)
    (maxTries : Nat) :
    let f := commandFrame e.block.cfg board (cmd.code e.block.cfg) param1 param2
    (commandResponse board cmd param1 (bytesOf param2) maxTries expBoard e).2 =
        (attemptLoop f expBoard cmd maxTries (afterEncode e f)).2 ∧
      (commandResponse board cmd param1 (bytesOf param2) maxTries expBoard e).1.sent =
        (attemptLoop f expBoard cmd maxTries (afterEncode e f)).1.sent := by
  intro f
  rw [commandResponse_eq]
  obtain ⟨hresult, -, hsent, -⟩ := settleClient_frame (attemptLoop f expBoard cmd maxTries (afterEncode e f))
  exact ⟨hresult, hsent⟩

/-- What comes of the first matching reply (R105). -/
def replyOutcome (c : Config) (status : Byte) : Except EnvError Byte :=
  if status = c.statusOk then .ok status else .error (.deviceRejected status)

/-- What the bus does with the next frame sent: the script's oldest attempt, or silence (log 18). -/
def nextAttempt (e : Env) : Attempt := e.world.head?.getD ⟨true, []⟩

/-- What silence and the script's first attempts all satisfy, the next attempt satisfies, and so do those after it. -/
theorem forall_take_succ {P : Attempt → Prop} {n : Nat} {e : Env} (hsilence : P ⟨true, []⟩)
    (h : ∀ a ∈ e.world.take (n + 1), P a) : P (nextAttempt e) ∧ ∀ a ∈ e.world.tail.take n, P a := by
  unfold nextAttempt
  cases hw : e.world with
  | nil => exact ⟨hsilence, fun a ha => by simp at ha⟩
  | cons a rest =>
    rw [hw] at h
    exact ⟨h a List.mem_cons_self, fun b hb => h b (List.mem_cons_of_mem a hb)⟩

/-- One attempt: the frame is sent, and then the window's first match, a failed `send`, or the next attempt decides
(R105). -/
theorem attemptLoop_succ (f : Frame) (expBoard : Byte) (cmd : Command) (n : Nat) (e : Env) :
    ∃ e', e.block.SameButResult e'.block ∧ e'.sent = e.sent ++ [f] ∧ e'.world = e.world.tail ∧
      attemptLoop f expBoard cmd (n + 1) e =
        if (nextAttempt e).sendOk then
          match (awaitMatch expBoard cmd (nextAttempt e).received (sendFrame f e).1).2 with
          | some status => (e', replyOutcome e.block.cfg status)
          | none => attemptLoop f expBoard cmd n e'
        else (e', .error .transportError) := by
  obtain ⟨hsent, hblock, -, hworld⟩ := sendFrame_spec f e
  have hattempt : (sendFrame f e).2 = nextAttempt e := sendFrame_attempt f e
  have hquiet := awaitMatch_quiet expBoard cmd (nextAttempt e).received (sendFrame f e).1
  simp only [attemptLoop, hattempt]
  split
  · refine ⟨_, hblock ▸ hquiet.block, hquiet.sent.trans hsent, hquiet.world.trans hworld, ?_⟩
    have hcfg := hquiet.block.cfg
    rw [hblock] at hcfg
    generalize awaitMatch expBoard cmd (nextAttempt e).received (sendFrame f e).1 = y at *
    obtain ⟨e2, _ | status⟩ := y
    · rfl
    · simp only [replyOutcome] at hcfg ⊢
      rw [hcfg]
      split <;> rfl
  · exact ⟨_, hblock ▸ .refl _, hsent, hworld, rfl⟩

/-- An attempt whose frame is sent and whose window holds a matching reply is the last (R105, R107). -/
theorem attemptLoop_reply {f reply : Frame} {expBoard status : Byte} {cmd : Command} {e : Env}
    {before after : List Frame} {rest : List Attempt} (hworld : e.world = ⟨true, before ++ reply :: after⟩ :: rest)
    (hlen : reply.len ≤ e.block.cfg.rxMaxBytes)
    (hbefore : ∀ g ∈ before, matchStatus e.block.cfg g expBoard (cmd.code e.block.cfg) = none)
    (hreply : matchStatus e.block.cfg reply expBoard (cmd.code e.block.cfg) = some status) (n : Nat) :
    (attemptLoop f expBoard cmd (n + 1) e).2 = replyOutcome e.block.cfg status ∧
      (attemptLoop f expBoard cmd (n + 1) e).1.sent = e.sent ++ [f] := by
  obtain ⟨e', -, hsent, -, heq⟩ := attemptLoop_succ f expBoard cmd n e
  have hattempt : nextAttempt e = ⟨true, before ++ reply :: after⟩ := by simp [nextAttempt, hworld]
  have hblock : (sendFrame f e).1.block = e.block := (sendFrame_spec f e).2.1
  rw [← hblock] at hlen hbefore hreply
  rw [heq, hattempt, awaitMatch_some hbefore hlen hreply]
  exact ⟨rfl, hsent⟩

/-- While nothing matches, every attempt sends the frame again (R105, R106). -/
theorem attemptLoop_silent {f : Frame} {expBoard : Byte} {cmd : Command} {n : Nat} {e : Env}
    (h : ∀ a ∈ e.world.take n, a.sendOk = true ∧
      ∀ g ∈ a.received, matchStatus e.block.cfg g expBoard (cmd.code e.block.cfg) = none) :
    (attemptLoop f expBoard cmd n e).2 = .error .noReply ∧
      (attemptLoop f expBoard cmd n e).1.sent = e.sent ++ List.replicate n f := by
  induction n generalizing e with
  | zero => exact ⟨rfl, (List.append_nil _).symm⟩
  | succ n ih =>
    obtain ⟨e', hsame, hsent, hworld, heq⟩ := attemptLoop_succ f expBoard cmd n e
    obtain ⟨⟨hok, hnone⟩, hlater⟩ := forall_take_succ ⟨rfl, fun g hg => by cases hg⟩ h
    have hblock : (sendFrame f e).1.block = e.block := (sendFrame_spec f e).2.1
    rw [← hblock] at hnone
    rw [heq, if_pos hok, awaitMatch_none hnone]
    obtain ⟨hresult, hall⟩ := ih (e := e') (by rw [hworld, hsame.cfg]; exact hlater)
    exact ⟨hresult, by rw [hall, hsent, List.append_assoc]; rfl⟩

/-- No attempt touches anything of the block but its result (R146). -/
theorem attemptLoop_sameButResult (f : Frame) (expBoard : Byte) (cmd : Command) (n : Nat) (e : Env) :
    e.block.SameButResult (attemptLoop f expBoard cmd n e).1.block := by
  induction n generalizing e with
  | zero => exact .refl _
  | succ n ih =>
    obtain ⟨e', hsame, -, -, heq⟩ := attemptLoop_succ f expBoard cmd n e
    rw [heq]
    split
    · split
      · exact hsame
      · exact hsame.trans (ih e')
    · exact hsame

/-- The encoder writes only the result record, whatever it is given (R83). -/
theorem ask_encodeRequest_sameButResult (c : Config) (board : Byte) (cmd : Command) (param1 : Half) (param2 : List Byte)
    (e : Env) : e.block.SameButResult (ask (encodeRequest c board cmd param1 param2) e).1.block := by
  rw [ask_of_exec (r := encodeRequest c board cmd param1 param2) (Nat.zero_le _) (exec_frameEncode_eq ..)]
  exact State.sameButResult_setResult ..

/-- No traffic of a command touches anything of the block but its result (R146). -/
theorem commandResponse_sameButResult (board expBoard : Byte) (cmd : Command) (param1 : Half) (param2 : List Byte)
    (maxTries : Nat) (e : Env) :
    e.block.SameButResult (commandResponse board cmd param1 param2 maxTries expBoard e).1.block := by
  have hask := ask_encodeRequest_sameButResult e.block.cfg board cmd param1 param2 { e with client := .awaitingReply }
  unfold commandResponse
  split
  · rename_i e1 f heq
    rw [heq] at hask
    rw [(settleClient_frame _).2.1]
    exact hask.trans (attemptLoop_sameButResult ..)
  · rename_i e1 r _ heq
    rw [heq] at hask
    rw [(settleClient_frame _).2.1]
    exact hask

/-- A try of the handshake in which nothing matches, or whose `send` fails, is followed by the next (R104; log 19). -/
theorem pingLoop_succ_of_silent {board : Byte} {e : Env}
    (h : (nextAttempt e).sendOk = true →
      ∀ g ∈ (nextAttempt e).received, matchStatus e.block.cfg g board (Command.ping.code e.block.cfg) = none)
    (params : Nat → Half × Bytes4) (n : Nat) :
    ∃ e', e'.block.cfg = e.block.cfg ∧ e'.world = e.world.tail ∧
      pingLoop board params (n + 1) e = pingLoop board params n e' := by
  let f := commandFrame e.block.cfg board (Command.ping.code e.block.cfg) (params n).1 (params n).2
  let e1 : Env := { e with block := e.block.setResult (.frame f) }
  obtain ⟨-, hblock, -, hworld⟩ := sendFrame_spec f e1
  have hcfg : (sendFrame f e1).1.block.cfg = e.block.cfg := by rw [hblock]; rfl
  have hattempt : (sendFrame f e1).2 = nextAttempt e := sendFrame_attempt f e1
  have hquiet := awaitMatch_quiet board .ping (nextAttempt e).received (sendFrame f e1).1
  simp only [pingLoop, ask_encodeRequest]
  change ∃ e', _ ∧ _ ∧ (if (sendFrame f e1).2.sendOk then _ else _) = _
  rw [hattempt]
  split
  case isTrue hok =>
    have hnone := h hok
    rw [← hcfg] at hnone
    refine ⟨_, hquiet.block.cfg.trans hcfg, hquiet.world.trans hworld, ?_⟩
    have hmatch := awaitMatch_none hnone
    split
    · rename_i heq
      cases hmatch.symm.trans (congrArg Prod.snd heq)
    · rename_i heq
      exact congrArg (pingLoop board params n) (congrArg Prod.fst heq).symm
  case isFalse => exact ⟨_, hcfg, hworld, rfl⟩

/-- No matching answer in any try: the handshake ends in false (R104). -/
theorem pingLoop_silent {board : Byte} {params : Nat → Half × Bytes4} {n : Nat} {e : Env}
    (h : ∀ a ∈ e.world.take n, a.sendOk = true →
      ∀ g ∈ a.received, matchStatus e.block.cfg g board (Command.ping.code e.block.cfg) = none) :
    (pingLoop board params n e).2 = false := by
  induction n generalizing e with
  | zero => rfl
  | succ n ih =>
    obtain ⟨hnext, hlater⟩ := forall_take_succ (fun _ g hg => by cases hg) h
    obtain ⟨e', hcfg, hworld, heq⟩ := pingLoop_succ_of_silent hnext params n
    rw [heq]
    exact ih (by rw [hworld, hcfg]; exact hlater)

/-- `flash` whose handshake ends in false stops there (R114). -/
theorem flash_of_no_connection {e : Env} {board : Byte} {image : List Byte} {connectTries : Nat}
    {params : Nat → Half × Bytes4} (hpages : pageCount e.block.cfg image.length ≤ 65535)
    (h : (pingLoop board params connectTries { e with client := .connecting }).2 = false) (pageRetries maxTries : Nat) :
    flash board image pageRetries connectTries maxTries params e =
      ({ (pingLoop board params connectTries { e with client := .connecting }).1 with client := .failed },
        .error .connectionFailed) := by
  have hwait : waitForConnection board params connectTries e =
      ({ (pingLoop board params connectTries { e with client := .connecting }).1 with client := .failed }, false) := by
    unfold waitForConnection
    split
    · rename_i heq; rw [heq] at h; cases h
    · rename_i heq; rw [heq]
  simp only [flash, Nat.not_lt.mpr hpages, if_false, hwait]

/-- A frame from another board does not match (R78). -/
theorem matchStatus_of_board_ne {c : Config} {rx : Frame} {expBoard : Byte} (h : rx.data[0]? ≠ some expBoard)
    (expCmd : Byte) : matchStatus c rx expBoard expCmd = none :=
  Option.eq_none_iff_forall_ne_some.mpr fun status hs => by
    obtain ⟨-, -, htail⟩ := responseFields_eq_some.mp (matchStatus_eq_some.mp hs)
    exact h (exists_tail_iff.mp htail).2.1

/-- A response on the first recognised identifier matches its board and code (R78). -/
theorem matchStatus_first_response {c : Config} (hstd : c.Standard) (h : 0 < c.respIdCount) (board code status : Byte) :
    matchStatus c ⟨c.respIdBase, [board, code, status]⟩ board code = some status := by
  rw [matchStatus_eq_some]
  exact (responseFields_channelFrame hstd.respMinBytes 0 board code status []).trans (if_pos h)

/-- The frame of `set_address`: `SetId` to the old address, `param1` the new one (R108). -/
def setIdFrame (c : Config) (board : Byte) (newAddress : Nat) (param2 : Bytes4) : Frame :=
  commandFrame c board (Command.setId.code c) (BitVec.ofNat 16 newAddress) param2

theorem setIdFrame_eq {c : Config} (hstd : c.Standard) {newAddress : Nat} (h : newAddress ≤ 254) (board : Byte)
    (param2 : Bytes4) : setIdFrame c board newAddress param2 =
      ⟨c.cmdId, [board, 5#8, BitVec.ofNat 8 newAddress, 0#8, param2.b3, param2.b2, param2.b1, param2.b0]⟩ := by
  rw [setIdFrame, commandFrame, commandPayload, lowByte_ofNat, highByte_ofNat (by omega), Command.code, hstd.codeSetId]
  rfl

/-- `set_address` outside the range does nothing (R108). -/
theorem setAddress_of_outside {e : Env} (hstd : e.block.cfg.Standard) {newAddress : Nat} (h : 254 < newAddress)
    (board : Byte) (param2 : Bytes4) (maxTries : Nat) :
    setAddress board newAddress param2 maxTries e = (e, .error .invalidAddress) :=
  if_neg (by rw [hstd.addrMax]; exact Nat.not_le.mpr h)

/-- `set_address` inside the range is a `SetId` command that awaits the new address (R109). -/
theorem setAddress_of_inside {e : Env} (hstd : e.block.cfg.Standard) {newAddress : Nat} (h : newAddress ≤ 254)
    (board : Byte) (param2 : Bytes4) (maxTries : Nat) :
    setAddress board newAddress param2 maxTries e = commandResponse board .setId (BitVec.ofNat 16 newAddress)
      (bytesOf param2) maxTries (BitVec.ofNat 8 newAddress) e :=
  if_pos (by rw [hstd.addrMax]; exact h)

end Sys2Proof.Environment

open Sys2Proof Sys2Proof.Machine Sys2Proof.Environment

/-- Settles O53: neither the encoder nor the attempts touch more than the result. -/
theorem commandTrafficLeavesAccumulators : Obligations.CommandTrafficLeavesAccumulators := by
  intro e board expBoard cmd param1 param2 maxTries
  exact commandResponse_sameButResult ..

/-- Settles O51: no attempt of the script ends the exchange. -/
theorem silentPeerYieldsNoReply : Obligations.SilentPeerYieldsNoReply := by
  intro e board expBoard cmd param1 param2 maxTries h
  obtain ⟨hresult, hsent⟩ := commandResponse_settled e board expBoard cmd param1 param2 maxTries
  rw [hresult, hsent]
  exact attemptLoop_silent h

/-- Settles O52: the reply ends the first attempt, and its status is not `STATUS_OK`. -/
theorem rejectionIsNotRetried : Obligations.RejectionIsNotRetried := by
  intro e board expBoard status cmd param1 param2 n before after reply rest hworld hlen hbefore hreply hstatus
  obtain ⟨hresult, hsent⟩ := commandResponse_settled e board expBoard cmd param1 param2 (n + 1)
  obtain ⟨hoc, hall⟩ := attemptLoop_reply (e := afterEncode e _) hworld hlen hbefore hreply n
  rw [hresult, hsent]
  exact ⟨hoc.trans (if_neg hstatus), hall⟩

/-- Settles O49: the range is checked first; inside it the attempts send one frame only. -/
theorem setAddressChecksTheRange : Obligations.SetAddressChecksTheRange := by
  intro e board newAddress maxTries param2 hstd
  refine ⟨fun hout => setAddress_of_outside hstd hout .., fun hin => ?_⟩
  rw [setAddress_of_inside hstd hin, ← setIdFrame_eq hstd hin]
  obtain ⟨-, hsent⟩ := commandResponse_settled e board (BitVec.ofNat 8 newAddress) .setId
    (BitVec.ofNat 16 newAddress) param2 maxTries
  obtain ⟨n, hle, hpos, hn⟩ := attemptLoop_sent (setIdFrame e.block.cfg board newAddress param2)
    (BitVec.ofNat 8 newAddress) .setId maxTries (afterEncode e (setIdFrame e.block.cfg board newAddress param2))
  exact ⟨n, hpos, hle, hsent.trans hn⟩

/-- Settles O50: only the last frame of the window comes from the new address, and it ends the first attempt. -/
theorem setAddressAwaitsTheNewAddress : Obligations.SetAddressAwaitsTheNewAddress := by
  intro e board newAddress n param2 rest status frames hstd hin hframes hworld hcount
  obtain ⟨hresult, hsent⟩ := commandResponse_settled e board (BitVec.ofNat 8 newAddress) .setId
    (BitVec.ofNat 16 newAddress) param2 (n + 1)
  have hbefore : ∀ f ∈ frames,
      matchStatus e.block.cfg f (BitVec.ofNat 8 newAddress) (Command.setId.code e.block.cfg) = none :=
    fun f hf => matchStatus_of_board_ne (hframes f hf) _
  have hreply : matchStatus e.block.cfg ⟨e.block.cfg.respIdBase, [BitVec.ofNat 8 newAddress, 5#8, status]⟩
      (BitVec.ofNat 8 newAddress) (Command.setId.code e.block.cfg) = some status := by
    rw [show Command.setId.code e.block.cfg = 5#8 from hstd.codeSetId]
    exact matchStatus_first_response hstd hcount ..
  have hlen : 3 ≤ e.block.cfg.rxMaxBytes := by rw [hstd.rxMaxBytes]; decide
  obtain ⟨hoc, hall⟩ := attemptLoop_reply (f := setIdFrame e.block.cfg board newAddress param2)
    (e := afterEncode e (setIdFrame e.block.cfg board newAddress param2)) hworld hlen hbefore hreply n
  rw [setAddress_of_inside hstd hin, ← setIdFrame_eq hstd hin, hresult, hsent]
  refine ⟨hoc.trans ?_, hall⟩
  rw [replyOutcome]
  exact if_congr (by rw [← hstd.statusOk]; rfl) rfl rfl

/-- Settles O54: the handshake fails, having sent one `Ping` for each try, and nothing else was begun. -/
theorem noConnectionMeansNoPageTraffic : Obligations.NoConnectionMeansNoPageTraffic := by
  intro e board image pageRetries connectTries maxTries params hstd hlen h
  have hpages : pageCount e.block.cfg image.length ≤ 65535 := by
    rw [pageCount, hstd.pageBytes]
    omega
  have hcode : e.block.cfg.codePing = 4#8 := hstd.codePing
  have hsilent := pingLoop_silent (e := { e with client := .connecting }) (board := board) (params := params)
    (n := connectTries) (by rw [← hcode] at h; exact h)
  obtain ⟨hsame, pings, hsent, -, hcount, hall⟩ := pingLoop_spec board params connectTries
    { e with client := .connecting }
  rw [flash_of_no_connection hpages hsilent]
  refine ⟨rfl, hsame, pings, hsent, hcount hsilent, fun f hf => ?_⟩
  obtain ⟨p, q, rfl⟩ := hall f hf
  exact ⟨rfl, congrArg some hcode⟩

end

