-- ==== Sys2Proof/Proofs/FlashImage.lean ====
section
/-! PROOF. What a successful flash puts through the image accumulator and sends last (spec/45_host_sequences.md R115 to
R118, R146): O55. Every stage either leaves the accumulators or feeds known words to the image accumulator. -/

namespace Sys2Proof.Environment

open Machine

/-- From `e` to `e'` the image accumulator took in the words `ws`, in order; the configuration is the same. -/
structure FeedsImage (e e' : Env) (ws : List Bytes4) : Prop where
  cfg : e'.block.cfg = e.block.cfg
  image : e'.block.getCrc .image = crcStream e.block.cfg (e.block.getCrc .image) (ws.map bytesOf)

/-- What touches only the result record feeds nothing (R146). -/
theorem FeedsImage.of_sameButResult {e e' : Env} (h : e.block.SameButResult e'.block) : FeedsImage e e' [] :=
  ⟨h.cfg, h.getCrc .image⟩

theorem FeedsImage.trans {a b c : Env} {ws vs : List Bytes4} (h : FeedsImage a b ws) (g : FeedsImage b c vs) :
    FeedsImage a c (ws ++ vs) where
  cfg := g.cfg.trans h.cfg
  image := by rw [g.image, h.cfg, h.image, List.map_append, crcStream_append]

/-- Beginning a page writes the page accumulator only (R62). -/
theorem askAll_pageBegin_feeds (e : Env) : FeedsImage e (askAll pageBegin e) [] := by
  simp only [pageBegin, askAll, ask_crcInit]
  exact ⟨by simp, (setResult_getCrc ..).trans (getCrc_setCrc_other ..)⟩

/-- A word that is fed reaches the image accumulator once (R57). -/
theorem askAll_feed_feeds {e : Env} (h : e.block.cfg.wordBytes = 4) (w : Bytes4) :
    FeedsImage e (askAll (feed w) e) [w] := by
  simp only [feed, askAll]
  rw [ask_crcUpdate .page w e h, ask_crcUpdate .image w _ (by simpa using h)]
  exact ⟨by simp, by simp [getCrc_setCrc, crcStream]⟩

theorem askAll_flatMap_feed_feeds {e : Env} (h : e.block.cfg.wordBytes = 4) (ws : List Bytes4) :
    FeedsImage e (askAll (ws.flatMap feed) e) ws := by
  induction ws generalizing e with
  | nil => exact .of_sameButResult (.refl _)
  | cons w ws ih =>
    have hfeed := askAll_feed_feeds h w
    rw [List.flatMap_cons, askAll_append]
    exact hfeed.trans (ih (hfeed.cfg ▸ h))

theorem askDigest_sameButResult (k : Acc) (e : Env) : e.block.SameButResult (askDigest k e).1.block := by
  rw [askDigest_eq]
  exact State.sameButResult_setResult ..

theorem sendWords_sameButResult (board : Byte) (maxTries : Nat) (ws : List (Nat × Bytes4)) (e : Env) :
    e.block.SameButResult (sendWords board maxTries ws e).1.block := by
  induction ws generalizing e with
  | nil => exact .refl _
  | cons jw ws ih =>
    obtain ⟨j, w⟩ := jw
    have hcommand := commandResponse_sameButResult board board .writeBuffer (BitVec.ofNat 16 j) (bytesOf w) maxTries e
    unfold sendWords
    split
    · rename_i e' _ heq; rw [heq] at hcommand; exact hcommand.trans (ih e')
    · rename_i heq; rw [heq] at hcommand; exact hcommand

theorem pageAttempt_sameButResult (board : Byte) (maxTries p : Nat) (words : List Bytes4) (digest : List Byte)
    (e : Env) : e.block.SameButResult (pageAttempt board maxTries p words digest e).1.block := by
  have hwords := sendWords_sameButResult board maxTries ((List.range words.length).zip words) e
  unfold pageAttempt
  split
  · rename_i heq; rw [heq] at hwords; exact hwords
  · rename_i e1 heq
    rw [heq] at hwords
    have hcommand := commandResponse_sameButResult board board .writePage (BitVec.ofNat 16 p) digest maxTries e1
    split <;> rename_i heq' <;> rw [heq'] at hcommand <;> exact hwords.trans hcommand

theorem pageAttempts_sameButResult (board : Byte) (maxTries p : Nat) (words : List Bytes4) (digest : List Byte)
    (n : Nat) (e : Env) : e.block.SameButResult (pageAttempts board maxTries p words digest n e).1.block := by
  induction n generalizing e with
  | zero => exact .refl _
  | succ n ih =>
    have hattempt := pageAttempt_sameButResult board maxTries p words digest e
    unfold pageAttempts
    split
    · rename_i heq; rw [heq] at hattempt; exact hattempt
    · rename_i e1 _ heq; rw [heq] at hattempt; exact hattempt.trans (ih e1)

/-- Pages that all succeed have fed every word of every page once, however often they were sent (R115, R116). -/
theorem flashPages_feeds {board : Byte} {maxTries pageRetries : Nat} {padded : List Byte} {pages : List Nat}
    {e e' : Env} (h : e.block.cfg.wordBytes = 4)
    (hok : flashPages board maxTries pageRetries padded pages e = (e', .ok ())) :
    FeedsImage e e' (pages.flatMap (pageWords e.block.cfg padded)) := by
  induction pages generalizing e with
  | nil => cases hok; exact .of_sameButResult (.refl _)
  | cons p pages ih =>
    let words := pageWords e.block.cfg padded p
    let e1 := askAll (pageBegin ++ words.flatMap feed) e
    have hfed : FeedsImage e e1 words := by
      have hbegin := askAll_pageBegin_feeds e
      simp only [e1, askAll_append]
      exact hbegin.trans (askAll_flatMap_feed_feeds (hbegin.cfg ▸ h) words)
    have hdigest := askDigest_sameButResult .page e1
    have hattempts := pageAttempts_sameButResult board maxTries p words (askDigest .page e1).2 pageRetries
      (askDigest .page e1).1
    unfold flashPages at hok
    simp only at hok
    split at hok
    · rename_i e3 heq
      rw [heq] at hattempts
      have hpage : FeedsImage e e3 (words ++ []) := hfed.trans (.of_sameButResult (hdigest.trans hattempts))
      have hrest := ih (hpage.cfg ▸ h) hok
      rw [hpage.cfg] at hrest
      simpa only [List.append_nil, List.flatMap_cons] using hpage.trans hrest
    · cases hok

/-- Transfers begin with the image accumulator at `INIT` (R57). -/
theorem askAll_transferBegin (e : Env) : (askAll transferBegin e).block.cfg = e.block.cfg ∧
    (askAll transferBegin e).block.getCrc .image = e.block.cfg.init := by
  simp only [transferBegin, askAll, ask_crcInit]
  exact ⟨by simp, by simp⟩

/-- A command that succeeds has sent its frame, and nothing after it (R105). -/
theorem getLast?_sent_of_commandResponse_ok {e e' : Env} {board expBoard status : Byte} {cmd : Command} {param1 : Half}
    {param2 : Bytes4} {maxTries : Nat}
    (h : commandResponse board cmd param1 (bytesOf param2) maxTries expBoard e = (e', .ok status)) :
    e'.sent.getLast? = some (commandFrame e.block.cfg board (cmd.code e.block.cfg) param1 param2) := by
  obtain ⟨hresult, hsent⟩ := commandResponse_settled e board expBoard cmd param1 param2 maxTries
  rw [h] at hresult hsent
  let f := commandFrame e.block.cfg board (cmd.code e.block.cfg) param1 param2
  obtain ⟨k, -, hpos, hall⟩ := attemptLoop_sent f expBoard cmd maxTries (afterEncode e f)
  have hsent' : e'.sent = e.sent ++ List.replicate k f := hsent.trans hall
  have htries : 0 < maxTries := Nat.pos_of_ne_zero fun hzero => by subst hzero; cases hresult
  rw [hsent', List.getLast?_append, List.getLast?_replicate, if_neg (hpos htries).ne']
  rfl

/-- A flash that succeeds: the handshake, all pages, the image digest and the final `WriteCrc` (R114 to R118). -/
theorem flash_ok {board : Byte} {image : List Byte} {pageRetries connectTries maxTries : Nat}
    {params : Nat → Half × Bytes4} {e : Env}
    (h : (flash board image pageRetries connectTries maxTries params e).2 = .ok ()) :
    ∃ e1 e2 e4 status, waitForConnection board params connectTries e = (e1, true) ∧
      flashPages board maxTries pageRetries (padImage e1.block.cfg image)
        (List.range (pageCount e.block.cfg image.length)) (askAll transferBegin e1) = (e2, .ok ()) ∧
      commandResponse board .writeCrc (BitVec.ofNat 16 (pageCount e.block.cfg image.length)) (askDigest .image e2).2
        maxTries board (askDigest .image e2).1 = (e4, .ok status) ∧
      (flash board image pageRetries connectTries maxTries params e).1 = e4 := by
  unfold flash at h ⊢
  simp only at h ⊢
  split at h
  · cases h
  · rename_i hpages
    rw [if_neg hpages]
    split at h
    · cases h
    · rename_i e1 hwait
      split at h
      · cases h
      · rename_i e2 hfed
        split at h
        · rename_i e4 status hcrc
          exact ⟨e1, e2, e4, status, hwait, hfed, hcrc, rfl⟩
        · cases h

theorem waitForConnection_sameButResult (board : Byte) (params : Nat → Half × Bytes4) (n : Nat) (e : Env) :
    e.block.SameButResult (waitForConnection board params n e).1.block := by
  have hpings := (pingLoop_spec board params n { e with client := .connecting }).1
  unfold waitForConnection
  split <;> rename_i heq <;> rw [heq] at hpings <;> exact hpings

end Sys2Proof.Environment

open Sys2Proof Sys2Proof.Machine Sys2Proof.Environment

/-- Settles O55: only the pages' words reach the image accumulator, and the digest that `WriteCrc` carries is of its
value. -/
theorem successfulFlashCoversTheImageOnce : Obligations.SuccessfulFlashCoversTheImageOnce := by
  intro e board image pageRetries connectTries maxTries params hword hok v n d
  obtain ⟨e1, e2, e4, status, hwait, hpages, hcrc, hflash⟩ := flash_ok hok
  have hsame1 := waitForConnection_sameButResult board params connectTries e
  rw [hwait] at hsame1
  have hcfg1 : e1.block.cfg = e.block.cfg := hsame1.cfg
  obtain ⟨hcfg, hinit⟩ := askAll_transferBegin e1
  rw [hcfg1] at hcfg hinit hpages
  have hfed := flashPages_feeds (hcfg ▸ hword) hpages
  have himage : e2.block.getCrc .image = v := by
    rw [hfed.image, hcfg, hinit]
    rfl
  have hcfg2 : e2.block.cfg = e.block.cfg := hfed.cfg.trans hcfg
  have hsame4 := commandResponse_sameButResult board board .writeCrc n (askDigest .image e2).2 maxTries
    (askDigest .image e2).1
  rw [hcrc] at hsame4
  refine ⟨?_, ?_⟩
  · rw [hflash, hsame4.getCrc, (askDigest_sameButResult .image e2).getCrc, himage]
  · rw [askDigest_eq] at hcrc
    have hlast := getLast?_sent_of_commandResponse_ok hcrc
    simp only [setResult_cfg, hcfg2, himage] at hlast
    rw [hflash, hlast]
    rfl

end
